-- ==== Sys2Proof/Word.lean ====
section
/-! DEFINITION. The word types of KNXM: every value the spec treats as bits is a bit vector (00_scope R7). -/

namespace Sys2Proof

/-- A byte, 8 bits (00_scope R7). -/
abbrev Byte := BitVec 8

/-- A host register address, 16 bits (20_memory R41). -/
abbrev Addr := BitVec 16

end Sys2Proof
end

