-- ==== Sys2Proof/Syntax.lean ====
section
/-! DEFINITION. The commands of KNXM: one constructor per row of spec/opcode_table.json (30_encoding R65).
A command has no operand in its word (R63): every operand is a register. -/

namespace Sys2Proof

/-- The eleven commands of 30_encoding R65, in the table's order. -/
inductive Instr where
  | decode
  | encode
  | dptBool
  | dptInt8
  | dptUint8
  | dptInt16
  | dptUint16
  | dptFloat16
  | dptInt32
  | dptUint32
  | dptFloat32
  deriving DecidableEq, Repr

end Sys2Proof
end

