-- ==== Sys2Proof/Config.lean ====
section
/-! DEFINITION. What a build of KNXM fixes: the nine parameters of 00_scope R5, and the one free value of the spec. -/

namespace Sys2Proof

/-- HDR_CHECK_MODE: how the three header checks combine (R5, 42_decode R108, R109). -/
inductive HdrCheckMode where
  | any
  | all
  deriving DecidableEq, Repr

/-- CTRL_LAYOUT: the bit positions of the cEMI control fields (R5, 30_encoding R75). -/
inductive CtrlLayout where
  | knx
  | docLiteral
  deriving DecidableEq, Repr

/-- DPT9_MANTISSA: how the 2-byte float's sign and mantissa combine (R5, 41_dpt R100). -/
inductive Dpt9Mantissa where
  | twos12
  | signMag11
  deriving DecidableEq, Repr

/-- DPT9_ROUNDING: how the 2-byte float's result is rounded to binary32 (R5, 41_dpt R100). -/
inductive Dpt9Rounding where
  | exact
  | faithful
  deriving DecidableEq, Repr

/-- The implementation parameters of 00_scope R5. "A model of KNXM takes the parameters below as arguments." -/
structure Params where
  hdrCheckMode  : HdrCheckMode
  ctrlLayout    : CtrlLayout
  svcRoutingInd : BitVec 16
  maxPayload    : Byte
  encCtrl1      : Byte
  encCtrl2      : Byte
  encTpci       : BitVec 6
  dpt9Mantissa  : Dpt9Mantissa
  dpt9Rounding  : Dpt9Rounding
  deriving DecidableEq, Repr

/-- The default build of R5: "A model that takes the defaults of R5 is the normative KNXM" (R6). -/
def Params.default : Params where
  hdrCheckMode  := .any
  ctrlLayout    := .knx
  svcRoutingInd := 0x0530
  maxPayload    := 230
  encCtrl1      := 0xBC
  encCtrl2      := 0xE0
  encTpci       := 0
  dpt9Mantissa  := .twos12
  dpt9Rounding  := .exact

/-- FREE VALUE (log entry 8). Under DPT9_ROUNDING = FAITHFUL, which of the two binary32 neighbours of the exact
result a command writes "is a free draw of the step" (41_dpt R100): draw number `n` takes the greater neighbour
iff `Config.freeRoundUp n`. It has no body, so no proof can see what it is. -/
opaque Config.freeRoundUp : Nat → Bool

end Sys2Proof
end

