-- ==== Sys2Proof/Machine/Access.lean ====
section
/-! DEFINITION. Host programs: the host's one-byte accesses, their 32-bit access words, and the
pseudo-instructions that expand to them (30_encoding R88 to R90, 20_memory R59). -/

namespace Sys2Proof.Machine

/-- One host access of 30_encoding R88. The byte of `rd` is the value the program's writer expects (R90); KNXM
never sees it, and no step compares it (log entry 13). DESIGN CHOICE (log entry 22): R88 makes that value optional and R90
names no byte for a read without it; here such a read carries 0x00, as the word 80000600 of 95_test_vectors P6 does. -/
inductive Access where
  | wr (addr : Addr) (value : Byte)
  | rd (addr : Addr) (expected : Byte)
  | wait
  deriving DecidableEq, Repr

/-- The 32-bit access word of R90: kind in bits 31..30, zeros in 29..24, address in 23..8, byte in 7..0. -/
def accessWord (kind : BitVec 2) (addr : Addr) (value : Byte) : BitVec 32 :=
  kind ++ (0 : BitVec 6) ++ addr ++ value

/-- An access as its access word (R90); a WAIT is 0xC0000100. -/
def encodeAccess : Access → BitVec 32
  | .wr a v => accessWord 0b01 a v
  | .rd a e => accessWord 0b10 a e
  | .wait   => accessWord 0b11 0x0001 0x00

/-- The access an access word stands for; `none` for a word R90 gives to no access (log entry 14). -/
def decodeAccess (w : BitVec 32) : Option Access :=
  let addr : Addr := w.extractLsb' 8 16
  let value : Byte := w.extractLsb' 0 8
  if w.extractLsb' 24 6 ≠ 0 then none
  else if w.extractLsb' 30 2 = 0b01 then some (.wr addr value)
  else if w.extractLsb' 30 2 = 0b10 then some (.rd addr value)
  else if w.extractLsb' 30 2 = 0b11 ∧ addr = 0x0001 ∧ value = 0x00 then some .wait
  else none

/-- A host program as its access words, in order (R90). -/
def encodeProgram (p : List Access) : List (BitVec 32) := p.map encodeAccess

/-- The host program a list of access words stands for; `none` if one of them stands for no access. -/
def decodeProgram : List (BitVec 32) → Option (List Access)
  | [] => some []
  | w :: ws =>
    match decodeAccess w, decodeProgram ws with
    | some a, some rest => some (a :: rest)
    | _, _ => none

/-- The high byte of a 16-bit value. -/
def hi8 (v : BitVec 16) : Byte := v.extractLsb' 8 8

/-- The low byte of a 16-bit value. -/
def lo8 (v : BitVec 16) : Byte := v.extractLsb' 0 8

/-- Writes of consecutive bytes from an address up. -/
def writesFrom (addr : Addr) : List Byte → List Access
  | [] => []
  | b :: bs => .wr addr b :: writesFrom (addr + 1) bs

/-- The mnemonic pseudo-instruction of R89: write the command's CMD value, then WAIT. -/
def issue (command : Byte) : List Access := [.wr 0x0000 command, .wait]

/-- LDRX of R89: the datagram's bytes from RX[0] up, then its length into RXLEN. -/
def ldrx (bytes : List Byte) : List Access :=
  let n : BitVec 16 := BitVec.ofNat 16 bytes.length
  writesFrom 0x0400 bytes ++ [.wr 0x0002 (hi8 n), .wr 0x0003 (lo8 n)]

/-- LDMSG of R89: command type, sender, receiver and payload into the MSG registers. -/
def ldmsg (ct : Byte) (src dst : BitVec 16) (bytes : List Byte) : List Access :=
  [.wr 0x0006 ct, .wr 0x0008 (hi8 src), .wr 0x0009 (lo8 src), .wr 0x000A (hi8 dst), .wr 0x000B (lo8 dst)]
    ++ writesFrom 0x0100 bytes ++ [.wr 0x0007 (BitVec.ofNat 8 bytes.length)]

/-- RD16 of R89: the two bytes of a 16-bit register, the expected value split big-endian; without one, `e` is 0 (log entry
22). -/
def rd16 (addr : Addr) (e : BitVec 16) : List Access :=
  [.rd addr (hi8 e), .rd (addr + 1) (lo8 e)]

/-- RD32 of R89: the four bytes of a 32-bit register, the expected value split big-endian; without one, `e` is 0 (log entry
22). -/
def rd32 (addr : Addr) (e : BitVec 32) : List Access :=
  [.rd addr (e.extractLsb' 24 8), .rd (addr + 1) (e.extractLsb' 16 8),
   .rd (addr + 2) (e.extractLsb' 8 8), .rd (addr + 3) (e.extractLsb' 0 8)]

/-- "receive one datagram" of 20_memory R59: RX[0..min(len,1024)-1], RXLEN <- min(len, 0xFFFF), then DECODE. -/
def hostReceive (datagram : List Byte) : List Access :=
  let n : BitVec 16 := BitVec.ofNat 16 (min datagram.length 0xFFFF)
  writesFrom 0x0400 (datagram.take 1024) ++ [.wr 0x0002 (hi8 n), .wr 0x0003 (lo8 n)] ++ issue 0x01

/-- "send one message" of 20_memory R59: the MSG registers and the payload, then ENCODE. -/
def hostSend (ct : Byte) (src dst : BitVec 16) (bytes : List Byte) : List Access :=
  ldmsg ct src dst bytes ++ issue 0x02

end Sys2Proof.Machine
end

