-- ==== Sys2Proof/WellFormed.lean ====
section
/-! DEFINITION. What is well formed: an instruction, a build's parameters, a host program. -/

namespace Sys2Proof

/-- A command word has no operand field (30_encoding R63), so nothing of a command can be ill formed. -/
def Instr.wf : Instr → Bool
  | .decode | .encode => true
  | .dptBool | .dptInt8 | .dptUint8 | .dptInt16 | .dptUint16 | .dptFloat16 | .dptInt32 | .dptUint32 | .dptFloat32 => true

/-- Legal parameter values of 00_scope R5. MAX_PAYLOAD is 1-255; every other parameter's type holds exactly its
legal values (log entry 15). -/
def Params.legal (p : Params) : Bool := p.maxPayload != 0

open Machine in
/-- A host program read from its first access on, `waiting` saying that a command was started and no WAIT has
followed it yet (30_encoding R91, log entry 16). -/
def programOkFrom (waiting : Bool) : List Access → Bool
  | [] => !waiting
  | .wait :: rest => programOkFrom false rest
  | .rd a _ :: rest => (!waiting || a == 0x0001) && programOkFrom waiting rest
  | .wr a _ :: rest => !waiting && programOkFrom (a == 0x0000) rest

/-- A well-formed host program (30_encoding R91): "Every command-starting write ... is followed by WAIT before the
next access other than a STATUS read". -/
def programOk (p : List Machine.Access) : Bool := programOkFrom false p

end Sys2Proof
end

