-- ==== Sys2Proof/Decode.lean ====
section
/-! DEFINITION. The command decoder and encoder (30_encoding R63 to R67, opcode_table.json): a command word is one
byte, and "a decoder compares all 8 bits". -/

namespace Sys2Proof

/-- Why a byte is no command (30_encoding R66): it is in no row of the command map. -/
inductive DecodeError where
  | illegalCommand (value : Byte)
  deriving DecidableEq, Repr

/-- The command a CMD value selects (30_encoding R65), or its rejection by name (R66). -/
def decode (c : Byte) : Except DecodeError Instr :=
  if c = 0x01 then .ok .decode
  else if c = 0x02 then .ok .encode
  else if c = 0x10 then .ok .dptBool
  else if c = 0x11 then .ok .dptInt8
  else if c = 0x12 then .ok .dptUint8
  else if c = 0x13 then .ok .dptInt16
  else if c = 0x14 then .ok .dptUint16
  else if c = 0x15 then .ok .dptFloat16
  else if c = 0x16 then .ok .dptInt32
  else if c = 0x17 then .ok .dptUint32
  else if c = 0x18 then .ok .dptFloat32
  else .error (.illegalCommand c)

/-- The CMD value of a command, from the same table (30_encoding R65). -/
def encode : Instr → Byte
  | .decode     => 0x01
  | .encode     => 0x02
  | .dptBool    => 0x10
  | .dptInt8    => 0x11
  | .dptUint8   => 0x12
  | .dptInt16   => 0x13
  | .dptUint16  => 0x14
  | .dptFloat16 => 0x15
  | .dptInt32   => 0x16
  | .dptUint32  => 0x17
  | .dptFloat32 => 0x18

/-- CLASS, bits 7..4 of a command word: 0x0 frame commands, 0x1 DPT commands (30_encoding R63). -/
def commandClass (c : Byte) : BitVec 4 := c.extractLsb' 4 4

/-- FUNC, bits 3..0 of a command word (30_encoding R63). -/
def commandFunc (c : Byte) : BitVec 4 := c.extractLsb' 0 4

/-- The instruction the decoder reads from a table word: a command word is `nbits = 8` bits (30_encoding R63), the
byte the host writes to CMD. No other length is a command word. -/
def decodeTableWord (nbits w : Nat) : Option Instr :=
  if nbits = 8 ∧ w < 256 then
    match decode (BitVec.ofNat 8 w) with
    | .ok i => some i
    | .error _ => none
  else none

end Sys2Proof
end

