-- ==== Sys2Proof/Machine/State.lean ====
section
/-! DEFINITION. The state of KNXM as plain data (10_state), the reasons a step can stop, and the state after reset. -/

namespace Sys2Proof.Machine

/-- The internal byte stores of 20_memory R41: RX (RXBUF), TX (TXBUF) and P (MSG_PAYLOAD). -/
inductive Store where
  | rx
  | tx
  | payload
  deriving DecidableEq, Repr

/-- The RESULT codes of 10_state R18, by name. "No RESULT value outside the table of R18 is ever written" (R19). -/
inductive ResultCode where
  | none
  | delivered
  | encoded
  | dptOk
  | discShortHeader
  | discHdrLen
  | discHdrVersion
  | discHdrService
  | discHdrAll
  | discTruncated
  | discMsgcode
  | discNotGroup
  | discDlenZero
  | discDlenMax
  | errEncLen
  | errDptLen
  | errIllegalCmd
  deriving DecidableEq, Repr

/-- The two model faults of 60_exceptions R139. A fault ends the run; the hardware has no fault output. -/
inductive Fault where
  /-- Fault(UNINIT), R140: a command or a host read reached a byte that nothing has written since reset. Raised by
  every byte read of a store. SAFE: the hardware goes on with an arbitrary byte. The store and offset are the
  model's own record of which read it was; KNXM has no such register (R133; log entry 7). -/
  | uninit (store : Store) (offset : Nat)
  /-- Fault(HAZARD_BUSY), R141: the host made an access other than a STATUS read while BUSY = 1. Raised by the host's
  reads and writes. SAFE: the hardware does something unspecified (R156). -/
  | hazardBusy
  deriving DecidableEq, Repr

/-- Reasons for refusing an instruction. "No behaviour of KNXM is modelled as `refuse`" (93_implementation_defined). -/
inductive Refusal where
  /-- An instruction with no meaning yet. Raised only by an arm of exec that is still rejected by name: there is
  none. SAFE. -/
  | notModelled (mnemonic : String)
  deriving DecidableEq, Repr

/-- An application message (10_state R24): command type, sender, receiver, payload length and payload bytes. -/
structure Message where
  ct    : BitVec 4
  src   : BitVec 16
  dst   : BitVec 16
  len   : Byte
  bytes : List Byte
  deriving DecidableEq, Repr

/-- What the block lets the outside see besides its registers. -/
inductive Event where
  /-- A host read of an address returned this byte (20_memory R42). -/
  | read (addr : Addr) (value : Byte)
  /-- The Deliver event of an accepting DECODE, "carrying the message just committed" (42_decode R117). -/
  | deliver (message : Message)
  deriving DecidableEq, Repr

/-- One turn of the machine: which agent moves (00_scope R13), or the reset input (70_reset_and_hazards R151). -/
inductive Turn where
  | host (access : Access)
  | engine
  | reset
  deriving DecidableEq, Repr

/-- A byte store: the written bytes as (offset, byte) pairs, offsets strictly rising (`Memory.wf`). A byte's written
shadow (10_state R32) is 1 iff its offset is listed; an unlisted offset holds no value that a rule can read (log
entry 6). -/
abbrev Memory := List Host.Cell

/-- The architectural state of 10_state R15 and R32. STATUS is computed (`State.status`), as are IDENT and CFG.
The last four fields are the model's own (log entries 1, 2, 5, 8). -/
structure State where
  /-- CMD (R16). -/
  cmd        : Byte
  /-- STATUS.RESULT (R17, R18). -/
  result     : ResultCode
  /-- The latched command: it "exists only while BUSY = 1" (R16, R32), and BUSY is 1 iff it exists (R17). -/
  pending    : Option Byte
  /-- RXLEN (R20). -/
  rxlen      : BitVec 16
  /-- RXBUF (R21). -/
  rx         : Memory
  /-- TXLEN (R22). -/
  txlen      : BitVec 16
  /-- TXBUF (R23). -/
  tx         : Memory
  /-- MSG_CT (R25). -/
  msgCt      : BitVec 4
  /-- MSG_SRC (R26). -/
  msgSrc     : BitVec 16
  /-- MSG_DST (R27). -/
  msgDst     : BitVec 16
  /-- MSG_LEN (R28). -/
  msgLen     : Byte
  /-- MSG_PAYLOAD (R29). -/
  payload    : Memory
  /-- DELIVER_CNT (R30). -/
  deliverCnt : BitVec 16
  /-- DPT_RESULT (R31). -/
  dptResult  : BitVec 32
  /-- The build's parameters (00_scope R5): no step changes them. The model's own field. -/
  params     : Params
  /-- The turns still to be taken, first one first. The model's own field. -/
  agenda     : List Turn
  /-- The events so far, newest first. The model's own field. -/
  trace      : List Event
  /-- How many free draws have been taken (41_dpt R100, FAITHFUL). The model's own field. -/
  draws      : Nat
  deriving DecidableEq, Repr

/-- The state after reset (10_state R15, 70_reset_and_hazards R151): every register 0, nothing pending, every written
shadow 0. The build is the default one (00_scope R6); no host access is waiting. -/
def State.reset : State where
  cmd        := 0
  result     := .none
  pending    := .none
  rxlen      := 0
  rx         := []
  txlen      := 0
  tx         := []
  msgCt      := 0
  msgSrc     := 0
  msgDst     := 0
  msgLen     := 0
  payload    := []
  deliverCnt := 0
  dptResult  := 0
  params     := .default
  agenda     := []
  trace      := []
  draws      := 0

end Sys2Proof.Machine
end

