-- ==== Sys2Proof/Machine/Flags.lean ====
section
/-! DEFINITION. STATUS: the RESULT codes and their classes, BUSY, and the register byte (10_state R17 to R19). -/

namespace Sys2Proof.Machine

/-- The 7-bit code of a RESULT value (10_state R18). -/
def ResultCode.code : ResultCode → BitVec 7
  | .none            => 0x00
  | .delivered       => 0x01
  | .encoded         => 0x02
  | .dptOk           => 0x03
  | .discShortHeader => 0x10
  | .discHdrLen      => 0x11
  | .discHdrVersion  => 0x12
  | .discHdrService  => 0x13
  | .discHdrAll      => 0x14
  | .discTruncated   => 0x15
  | .discMsgcode     => 0x16
  | .discNotGroup    => 0x17
  | .discDlenZero    => 0x18
  | .discDlenMax     => 0x19
  | .errEncLen       => 0x20
  | .errDptLen       => 0x30
  | .errIllegalCmd   => 0x7F

/-- The classes of R19. -/
inductive ResultClass where
  | noneOrSuccess
  | discard
  | encodeError
  | dptError
  | illegalCommand
  deriving DecidableEq, Repr

/-- "The class of a code is its value's bits 6..4" (10_state R19). -/
def classBits (code : BitVec 7) : BitVec 3 := code.extractLsb' 4 3

/-- The class R19 gives to bits 6..4; `none` for the three patterns it gives to no class. -/
def classOfBits (b : BitVec 3) : Option ResultClass :=
  if b = 0b000 then some .noneOrSuccess
  else if b = 0b001 then some .discard
  else if b = 0b010 then some .encodeError
  else if b = 0b011 then some .dptError
  else if b = 0b111 then some .illegalCommand
  else none

/-- STATUS.BUSY: "1 while a command is pending or executing, else 0" (10_state R17). -/
def State.busy (s : State) : Bool := s.pending.isSome

/-- The STATUS byte: BUSY in bit 7, RESULT in bits 6..0 (10_state R17). -/
def State.status (s : State) : Byte := BitVec.ofBool s.busy ++ s.result.code

end Sys2Proof.Machine
end

