-- ==== Sys2Proof/Machine/Ops.lean ====
section
/-! DEFINITION. The named operations every rule is written with: byte stores, the CMD latch, how a command ends
(the primitives of 00_scope R9, which take the place of exceptions: 60_exceptions R145), events, reset. -/

namespace Sys2Proof.Machine

/-! ## Byte stores -/

/-- The byte at an offset; `none` when its written shadow is 0 (10_state R32). -/
def memGet : Memory → Nat → Option Byte
  | [], _ => none
  | (a, b) :: m, k => if a = k then some b else memGet m k

/-- Write one byte; its shadow becomes 1 (10_state R32). -/
def memPut : Memory → Nat → Byte → Memory
  | [], k, v => [(k, v)]
  | (a, b) :: m, k, v =>
    if k < a then (k, v) :: (a, b) :: m
    else if k = a then (k, v) :: m
    else (a, b) :: memPut m k v

/-- Write consecutive bytes from an offset up. -/
def memPutAll (m : Memory) (off : Nat) : List Byte → Memory
  | [] => m
  | b :: bs => memPutAll (memPut m off b) (off + 1) bs

/-- Offsets strictly rising, none below `lo`, all below `size`. -/
def risingFrom (lo size : Nat) : Memory → Bool
  | [] => true
  | (a, _) :: m => decide (lo ≤ a) && decide (a < size) && risingFrom (a + 1) size m

/-- The canonical form of a store of `size` bytes. No value is what an unlisted offset reads as, so every byte
value may be listed. -/
def Memory.wf (size : Nat) (m : Memory) : Bool := risingFrom 0 size m

/-- The sizes of the stores (20_memory R41). -/
def Store.size : Store → Nat
  | .rx      => 1024
  | .tx      => 512
  | .payload => 255

/-- A store's contents. -/
def State.store (s : State) : Store → Memory
  | .rx      => s.rx
  | .tx      => s.tx
  | .payload => s.payload

/-- Write consecutive bytes of a store (MemWrite of 00_scope R9). -/
def State.write (s : State) (st : Store) (off : Nat) (bytes : List Byte) : State :=
  match st with
  | .rx      => { s with rx := memPutAll s.rx off bytes }
  | .tx      => { s with tx := memPutAll s.tx off bytes }
  | .payload => { s with payload := memPutAll s.payload off bytes }

/-- Every store is in canonical form. -/
def State.memWf (s : State) : Bool := Memory.wf 1024 s.rx && Memory.wf 512 s.tx && Memory.wf 255 s.payload

/-! ## Starting and ending a command -/

/-- A CMD write while BUSY = 0 (10_state R16): "CMD <- v; STATUS.RESULT <- 0x00; STATUS.BUSY <- 1; pending <- v". -/
def latchCommand (v : Byte) (s : State) : State := { s with cmd := v, result := .none, pending := some v }

/-- The end of a command (10_state R16): it writes STATUS.RESULT and sets STATUS.BUSY <- 0; `pending` is gone. -/
def complete (r : ResultCode) (s : State) : State := { s with result := r, pending := none }

/-- raise Discard(r), 60_exceptions R137: "STATUS.RESULT <- r; STATUS.BUSY <- 0. No other register is written". -/
def raiseDiscard (r : ResultCode) (s : State) : State := complete r s

/-- raise Error(r), 60_exceptions R138: "STATUS.RESULT <- r; STATUS.BUSY <- 0"; what the command's rule wrote before
the raise stays written. -/
def raiseError (r : ResultCode) (s : State) : State := complete r s

/-- The illegal command, 30_encoding R66: STATUS.RESULT <- 0x7F, no other register changes. -/
def illegalCommand (s : State) : State := raiseError .errIllegalCmd s

/-- Why a command's computation stops early: a discard, or a model fault (00_scope R9). -/
inductive Stop where
  | discard (r : ResultCode)
  | fault (f : Fault)
  deriving DecidableEq, Repr

/-- One check of DECODE: `if bad: raise Discard(r)` (42_decode R105). -/
def discardIf (bad : Bool) (r : ResultCode) : Except Stop Unit := if bad then .error (.discard r) else .ok ()

/-- The outcome of a command whose computation answers the state it commits. A fault ends the run with nothing
written (60_exceptions R140). -/
def commandOutcome (s : State) : Except Stop State → Host.Outcome State Fault Refusal
  | .ok t               => .next t
  | .error (.discard r) => .next (raiseDiscard r s)
  | .error (.fault f)   => .fault f

/-! ## Writes of the commands' results -/

/-- The commit of an accepting DECODE, 42_decode R116: the MSG registers and P[0..L-1]. -/
def commitMessage (m : Message) (s : State) : State :=
  { s with msgCt := m.ct, msgSrc := m.src, msgDst := m.dst, msgLen := m.len, payload := memPutAll s.payload 0 m.bytes }

/-- Record an event. -/
def emit (e : Event) (s : State) : State := { s with trace := e :: s.trace }

/-- Delivery, 42_decode R117: DELIVER_CNT <- (DELIVER_CNT + 1)[15:0], and one Deliver event. -/
def deliver (m : Message) (s : State) : State := emit (.deliver m) { s with deliverCnt := s.deliverCnt + 1 }

/-- DPT_RESULT <- v (10_state R31). -/
def setDptResult (v : BitVec 32) (s : State) : State := { s with dptResult := v }

/-! ## Reset and turns -/

/-- The reset input, 70_reset_and_hazards R151: every register takes its reset value, a latched command is dropped,
every written shadow is cleared. The build stays (R151 "IDENT and CFG are constants"); so do the model's own agenda,
trace and count of draws, which belong to the run (log entry 12). -/
def takeReset (s : State) : State :=
  { State.reset with params := s.params, agenda := s.agenda, trace := s.trace, draws := s.draws }

/-- The turns left after the first of the agenda is taken. -/
def State.withAgenda (s : State) (turns : List Turn) : State := { s with agenda := turns }

end Sys2Proof.Machine
end

