-- ==== Sys2Proof/Machine/Operands.lean ====
section
/-! DEFINITION. Operand forms: block-internal byte reads, big-endian values, and the fields of the KNXnet/IP header
and the cEMI frame (00_scope R8, R9; 30_encoding R68 to R81). -/

namespace Sys2Proof.Machine

/-! ## Reads of a store -/

/-- One byte of a store; "if RX[k] was never written since reset: raise Fault(UNINIT)" (00_scope R9, 60_exceptions
R140). -/
def readByte (s : State) (st : Store) (k : Nat) : Except Fault Byte :=
  match memGet (s.store st) k with
  | some b => .ok b
  | none   => .error (.uninit st k)

/-- MemRead of 00_scope R9: `n` bytes from offset `off` up, in order, so the first unwritten one faults. -/
def readBytes (s : State) (st : Store) (off : Nat) : Nat → Except Fault (List Byte)
  | 0 => .ok []
  | n + 1 => do
    let b ← readByte s st off
    let bs ← readBytes s st (off + 1) n
    pure (b :: bs)

/-- RxByte(k) of 00_scope R9, inside DECODE. -/
def rxByte (s : State) (k : Nat) : Except Stop Byte := (readByte s .rx k).mapError .fault

/-- Bytes of RX in order, inside DECODE. -/
def rxBytes (s : State) (off n : Nat) : Except Stop (List Byte) := (readBytes s .rx off n).mapError .fault

/-! ## Big-endian values (00_scope R8) -/

/-- BE16(b0, b1) = b0 : b1. -/
def be16 (b0 b1 : Byte) : BitVec 16 := b0 ++ b1

/-- BE32(b0, b1, b2, b3) = b0 : b1 : b2 : b3. -/
def be32 (b0 b1 b2 b3 : Byte) : BitVec 32 := b0 ++ b1 ++ b2 ++ b3

/-- A 16-bit value as its two wire bytes, high byte first (20_memory R49). -/
def bytes16 (v : BitVec 16) : List Byte := [hi8 v, lo8 v]

/-! ## Control fields (30_encoding R75 to R78) -/

/-- A field of a byte: bits `lo + width - 1` down to `lo`. -/
def field (b : Byte) (lo width : Nat) : BitVec width := b.extractLsb' lo width

/-- Control field 1 (30_encoding R76): confirm. -/
def ctrl1Confirm (l : CtrlLayout) (c1 : Byte) : BitVec 1 :=
  match l with | .knx => field c1 0 1 | .docLiteral => field c1 7 1

/-- R76: ack_request. -/
def ctrl1AckRequest (l : CtrlLayout) (c1 : Byte) : BitVec 1 :=
  match l with | .knx => field c1 1 1 | .docLiteral => field c1 6 1

/-- R76: priority. -/
def ctrl1Priority (l : CtrlLayout) (c1 : Byte) : BitVec 2 :=
  match l with | .knx => field c1 2 2 | .docLiteral => field c1 4 2

/-- R76: system_broadcast. -/
def ctrl1SystemBroadcast (l : CtrlLayout) (c1 : Byte) : BitVec 1 :=
  match l with | .knx => field c1 4 1 | .docLiteral => field c1 3 1

/-- R76: repeat. -/
def ctrl1Repeat (l : CtrlLayout) (c1 : Byte) : BitVec 1 :=
  match l with | .knx => field c1 5 1 | .docLiteral => field c1 2 1

/-- R76: reserved. -/
def ctrl1Reserved (l : CtrlLayout) (c1 : Byte) : BitVec 1 :=
  match l with | .knx => field c1 6 1 | .docLiteral => field c1 1 1

/-- R76: frame_type. -/
def ctrl1FrameType (l : CtrlLayout) (c1 : Byte) : BitVec 1 :=
  match l with | .knx => field c1 7 1 | .docLiteral => field c1 0 1

/-- DAT_MASK of 30_encoding R78. -/
def datMask : CtrlLayout → Byte
  | .knx        => 0x80
  | .docLiteral => 0x01

/-- DAT(c2) of R78: whether the destination-address-type bit is 1 (a group address). -/
def dat (l : CtrlLayout) (c2 : Byte) : Bool := c2 &&& datMask l != 0

/-- HOP(c2) of R78; no command reads it. -/
def hopCount (l : CtrlLayout) (c2 : Byte) : BitVec 3 :=
  match l with | .knx => field c2 4 3 | .docLiteral => field c2 1 3

/-- EFF(c2) of R78; no command reads it. -/
def extendedFrameFormat (l : CtrlLayout) (c2 : Byte) : BitVec 4 :=
  match l with | .knx => field c2 0 4 | .docLiteral => field c2 4 4

/-! ## pci, data[0] and the command type (30_encoding R79 to R82) -/

/-- apci_high: pci bits 1..0 (R79). -/
def apciHigh (pci : Byte) : BitVec 2 := field pci 0 2

/-- tpci_seq: pci bits 5..2 (R79); DECODE ignores it. -/
def tpciSeq (pci : Byte) : BitVec 4 := field pci 2 4

/-- tpci_comm_type: pci bits 7..6 (R79); DECODE ignores it. -/
def tpciCommType (pci : Byte) : BitVec 2 := field pci 6 2

/-- Command-type assembly, R81: ct[3:0] = pci[1:0] : d0[7:6]. -/
def commandType (pci d0 : Byte) : BitVec 4 := apciHigh pci ++ field d0 6 2

/-- The pci byte ENCODE emits, R79, 43_encode R127: (ENC_TPCI << 2) | MSG_CT[3:2]. -/
def pciOf (tpci : BitVec 6) (ct : BitVec 4) : Byte := tpci ++ ct.extractLsb' 2 2

/-- P[0] as DECODE stores it: the top two bits cleared (R80). -/
def stripFragment (d0 : Byte) : Byte := d0 &&& 0x3F

/-- data[0] as ENCODE emits it, R80: (P[0] & 0x3F) | (MSG_CT[1:0] << 6). -/
def data0Of (ct : BitVec 4) (p0 : Byte) : Byte := (p0 &&& 0x3F) ||| (ct.extractLsb' 0 2 ++ (0 : BitVec 6))

/-- The names of the command types, 30_encoding R82; 4-15 have none. -/
inductive CommandTypeName where
  | read
  | response
  | write
  | reservedExtended
  deriving DecidableEq, Repr

/-- The name of a command type (10_state R25, 30_encoding R82). No command treats any value specially. -/
def commandTypeName (ct : BitVec 4) : Option CommandTypeName :=
  if ct = 0 then some .read
  else if ct = 1 then some .response
  else if ct = 2 then some .write
  else if ct = 3 then some .reservedExtended
  else none

/-! ## Protocol constants (10_state R35) -/

/-- HEADER_LEN. -/
def headerLen : Byte := 0x06

/-- PROTOCOL_VERSION. -/
def protocolVersion : Byte := 0x10

/-- MSG_CODE_LDATA_IND. -/
def msgCodeLDataInd : Byte := 0x29

/-- ENC_ADDINFO_LEN. -/
def encAddinfoLen : Byte := 0x00

/-- FIXED_LEN: header 6, message code and additional-info length 2, fixed service fields 8. -/
def fixedLen : Nat := 16

end Sys2Proof.Machine
end

