-- ==== Sys2Proof/Machine/Bus.lean ====
section
/-! DEFINITION. The host port: the address map and the host's one-byte reads and writes (20_memory R42 to R47, R57;
10_state R33, R34; 70_reset_and_hazards R156). -/

namespace Sys2Proof.Machine

/-- What an address of the host register space holds (20_memory R42). -/
inductive Place where
  | cmd
  | status
  | rxlenHi
  | rxlenLo
  | txlenHi
  | txlenLo
  | msgCt
  | msgLen
  | msgSrcHi
  | msgSrcLo
  | msgDstHi
  | msgDstLo
  | deliverCntHi
  | deliverCntLo
  | dptResult3
  | dptResult2
  | dptResult1
  | dptResult0
  | ident0
  | ident1
  | cfg (k : Nat)
  | payload (k : Nat)
  | rx (k : Nat)
  | tx (k : Nat)
  | unmapped
  deriving DecidableEq, Repr

/-- The address map of 20_memory R42. -/
def placeOf (addr : Addr) : Place :=
  let a := addr.toNat
  if a = 0x0000 then .cmd
  else if a = 0x0001 then .status
  else if a = 0x0002 then .rxlenHi
  else if a = 0x0003 then .rxlenLo
  else if a = 0x0004 then .txlenHi
  else if a = 0x0005 then .txlenLo
  else if a = 0x0006 then .msgCt
  else if a = 0x0007 then .msgLen
  else if a = 0x0008 then .msgSrcHi
  else if a = 0x0009 then .msgSrcLo
  else if a = 0x000A then .msgDstHi
  else if a = 0x000B then .msgDstLo
  else if a = 0x000C then .deliverCntHi
  else if a = 0x000D then .deliverCntLo
  else if a = 0x0010 then .dptResult3
  else if a = 0x0011 then .dptResult2
  else if a = 0x0012 then .dptResult1
  else if a = 0x0013 then .dptResult0
  else if a = 0x0014 then .ident0
  else if a = 0x0015 then .ident1
  else if 0x0020 ≤ a ∧ a ≤ 0x0027 then .cfg (a - 0x0020)
  else if 0x0100 ≤ a ∧ a ≤ 0x01FE then .payload (a - 0x0100)
  else if 0x0400 ≤ a ∧ a ≤ 0x07FF then .rx (a - 0x0400)
  else if 0x0800 ≤ a ∧ a ≤ 0x09FF then .tx (a - 0x0800)
  else .unmapped

/-! ## Constants (10_state R33, R34) -/

/-- IDENT0 = 0x4B, ASCII K. -/
def identByte0 : Byte := 0x4B

/-- IDENT1 = 0x01, the revision of the register interface. -/
def identByte1 : Byte := 0x01

/-- CFG0: bit 0 HDR_CHECK_MODE, bit 1 CTRL_LAYOUT, bit 2 DPT9_MANTISSA, bit 3 DPT9_ROUNDING, bits 7..4 zero. -/
def cfgByte0 (p : Params) : Byte :=
  (0 : BitVec 4) ++ BitVec.ofBool (p.dpt9Rounding = .faithful) ++ BitVec.ofBool (p.dpt9Mantissa = .signMag11)
    ++ BitVec.ofBool (p.ctrlLayout = .docLiteral) ++ BitVec.ofBool (p.hdrCheckMode = .all)

/-- CFG0 to CFG7 (10_state R34); CFG7 reads 0x00. -/
def cfgByte (p : Params) (k : Nat) : Byte :=
  if k = 0 then cfgByte0 p
  else if k = 1 then p.maxPayload
  else if k = 2 then p.encCtrl1
  else if k = 3 then p.encCtrl2
  else if k = 4 then (0 : BitVec 2) ++ p.encTpci
  else if k = 5 then hi8 p.svcRoutingInd
  else if k = 6 then lo8 p.svcRoutingInd
  else 0x00

/-! ## Reads -/

/-- The byte a place holds. An unmapped address reads 0x00 (20_memory R43); an unwritten buffer byte faults
(60_exceptions R140). -/
def readPlace (s : State) : Place → Except Fault Byte
  | .cmd          => .ok s.cmd
  | .status       => .ok s.status
  | .rxlenHi      => .ok (hi8 s.rxlen)
  | .rxlenLo      => .ok (lo8 s.rxlen)
  | .txlenHi      => .ok (hi8 s.txlen)
  | .txlenLo      => .ok (lo8 s.txlen)
  | .msgCt        => .ok ((0 : BitVec 4) ++ s.msgCt)
  | .msgLen       => .ok s.msgLen
  | .msgSrcHi     => .ok (hi8 s.msgSrc)
  | .msgSrcLo     => .ok (lo8 s.msgSrc)
  | .msgDstHi     => .ok (hi8 s.msgDst)
  | .msgDstLo     => .ok (lo8 s.msgDst)
  | .deliverCntHi => .ok (hi8 s.deliverCnt)
  | .deliverCntLo => .ok (lo8 s.deliverCnt)
  | .dptResult3   => .ok (s.dptResult.extractLsb' 24 8)
  | .dptResult2   => .ok (s.dptResult.extractLsb' 16 8)
  | .dptResult1   => .ok (s.dptResult.extractLsb' 8 8)
  | .dptResult0   => .ok (s.dptResult.extractLsb' 0 8)
  | .ident0       => .ok identByte0
  | .ident1       => .ok identByte1
  | .cfg k        => .ok (cfgByte s.params k)
  | .payload k    => readByte s .payload k
  | .rx k         => readByte s .rx k
  | .tx k         => readByte s .tx k
  | .unmapped     => .ok 0x00

/-! ## Writes -/

/-- A 16-bit register with its high byte replaced: "changes only that byte's bits" (20_memory R46). -/
def withHi (r : BitVec 16) (v : Byte) : BitVec 16 := v ++ lo8 r

/-- A 16-bit register with its low byte replaced (20_memory R46). -/
def withLo (r : BitVec 16) (v : Byte) : BitVec 16 := hi8 r ++ v

/-- A host write of a place while BUSY = 0. CMD latches a command (10_state R16); MSG_CT keeps bits 3..0 (20_memory
R44); read-only and unmapped places ignore the write (R43, R44). -/
def writePlace (v : Byte) (s : State) : Place → State
  | .cmd       => latchCommand v s
  | .rxlenHi   => { s with rxlen := withHi s.rxlen v }
  | .rxlenLo   => { s with rxlen := withLo s.rxlen v }
  | .msgCt     => { s with msgCt := v.extractLsb' 0 4 }
  | .msgLen    => { s with msgLen := v }
  | .msgSrcHi  => { s with msgSrc := withHi s.msgSrc v }
  | .msgSrcLo  => { s with msgSrc := withLo s.msgSrc v }
  | .msgDstHi  => { s with msgDst := withHi s.msgDst v }
  | .msgDstLo  => { s with msgDst := withLo s.msgDst v }
  | .payload k => s.write .payload k [v]
  | .rx k      => s.write .rx k [v]
  | .status | .txlenHi | .txlenLo | .deliverCntHi | .deliverCntLo
  | .dptResult3 | .dptResult2 | .dptResult1 | .dptResult0
  | .ident0 | .ident1 | .cfg _ | .tx _ | .unmapped => s

/-! ## Host accesses -/

/-- A host read: while BUSY = 1 only STATUS may be read (20_memory R57, 70_reset_and_hazards R156). The byte
returned is recorded; no read has a side effect (20_memory R47). -/
def hostRead (addr : Addr) (s : State) : Host.Outcome State Fault Refusal :=
  if s.busy && placeOf addr != .status then .fault .hazardBusy
  else
    match readPlace s (placeOf addr) with
    | .ok v    => .next (emit (.read addr v) s)
    | .error f => .fault f

/-- A host write: while BUSY = 1 any write is the hazard of R156, and is not performed. -/
def hostWrite (addr : Addr) (v : Byte) (s : State) : Host.Outcome State Fault Refusal :=
  if s.busy then .fault .hazardBusy else .next (writePlace v s (placeOf addr))

end Sys2Proof.Machine
end

