-- ==== Sys2Proof/Machine/Float.lean ====
section
/-! DEFINITION. IEEE-754 binary32 patterns of exact rationals, and the DPT 9.x 2-byte float (00_scope R9,
30_encoding R85, 41_dpt R100). A rational is a numerator and a positive denominator. -/

namespace Sys2Proof.Machine

/-! ## Magnitudes

Patterns with the sign bit 0 are numbers in the order of their values. In units of 2^-149, the least binary32
magnitude, pattern `p` has the value `magUnits p`: below 2^24 the pattern itself, and from there on a 24-bit
significand shifted left once more for every 2^23 patterns. -/

/-- How many units of 2^-149 make 1. -/
def unitsPerOne : Nat := 2 ^ 149

/-- The magnitude of a finite binary32 pattern with sign bit 0, in units of 2^-149. -/
def magUnits (p : Nat) : Nat :=
  if p / 2 ^ 23 = 0 then p else (2 ^ 23 + p % 2 ^ 23) * 2 ^ (p / 2 ^ 23 - 1)

/-- How far the significand of `num / den` is shifted left of the units place: its 24 bits end there. -/
def magShift (num den : Nat) : Nat := Nat.log2 (num * unitsPerOne / den) - 23

/-- The size, scaled by `den`, of one step between neighbouring patterns at `num / den`. -/
def magStep (num den : Nat) : Nat := den * 2 ^ magShift num den

/-- The pattern of the greatest binary32 magnitude not above `num / den` (for magnitudes below 2^128). -/
def magBelow (num den : Nat) : Nat := magShift num den * 2 ^ 23 + num * unitsPerOne / magStep num den

/-- What `magBelow` leaves over, scaled by `den`. -/
def magRest (num den : Nat) : Nat := num * unitsPerOne % magStep num den

/-- The pattern of the least binary32 magnitude not below `num / den`. -/
def magAbove (num den : Nat) : Nat := if magRest num den = 0 then magBelow num den else magBelow num den + 1

/-- The pattern of the nearest binary32 magnitude, ties to the even significand (00_scope R9, RNE32). -/
def magNearest (num den : Nat) : Nat :=
  if 2 * magRest num den < magStep num den then magBelow num den
  else if magStep num den < 2 * magRest num den then magBelow num den + 1
  else magBelow num den + magBelow num den % 2

/-! ## Signed patterns -/

/-- A pattern with its sign bit; the sign bit of zero is 0 (41_dpt R100: "no -0.0 arise"). -/
def signed (negative : Bool) (mag : Nat) : BitVec 32 :=
  if negative && mag != 0 then BitVec.ofNat 32 (2 ^ 31 + mag) else BitVec.ofNat 32 mag

/-- RNE32(num / den), 00_scope R9 and 41_dpt R100. -/
def rne32 (num : Int) (den : Nat) : BitVec 32 := signed (decide (num < 0)) (magNearest num.natAbs den)

/-- "the largest binary32 value <= q" (41_dpt R100, FAITHFUL). -/
def lower32 (num : Int) (den : Nat) : BitVec 32 :=
  if num < 0 then signed true (magAbove num.natAbs den) else signed false (magBelow num.natAbs den)

/-- "the smallest >= q" (41_dpt R100, FAITHFUL). -/
def upper32 (num : Int) (den : Nat) : BitVec 32 :=
  if num < 0 then signed true (magBelow num.natAbs den) else signed false (magAbove num.natAbs den)

/-! ## The 2-byte KNX float (30_encoding R85, 41_dpt R100) -/

/-- S = w[15]. -/
def dpt9Sign (w : BitVec 16) : Bool := w.getLsbD 15

/-- E = w[14:11], unsigned. -/
def dpt9Exponent (w : BitVec 16) : Nat := (w.extractLsb' 11 4).toNat

/-- m = w[10:0]. -/
def dpt9Fraction (w : BitVec 16) : BitVec 11 := w.extractLsb' 0 11

/-- The signed mantissa M of R100, under each reading of DPT9_MANTISSA. -/
def dpt9Mantissa (mode : Dpt9Mantissa) (w : BitVec 16) : Int :=
  let m := dpt9Fraction w
  match mode, dpt9Sign w with
  | _, false          => m.toNat
  | .twos12, true     => -(((~~~m).toNat : Int) + 1)
  | .signMag11, true  => -(m.toNat : Int)

/-- The numerator of the exact result q = M * 2^E / 100 (R100); its denominator is 100. -/
def dpt9Numerator (mode : Dpt9Mantissa) (w : BitVec 16) : Int := dpt9Mantissa mode w * 2 ^ dpt9Exponent w

/-- The binary32 result of R100: EXACT rounds to nearest; FAITHFUL takes either neighbour, `up` saying which. -/
def dpt9Value (mode : Dpt9Mantissa) (rounding : Dpt9Rounding) (up : Bool) (w : BitVec 16) : BitVec 32 :=
  match rounding with
  | .exact    => rne32 (dpt9Numerator mode w) 100
  | .faithful => if up then upper32 (dpt9Numerator mode w) 100 else lower32 (dpt9Numerator mode w) 100

end Sys2Proof.Machine
end

