-- ==== Sys2Proof/Machine/Dpt.lean ====
section
/-! DEFINITION. The nine DPT decode commands (41_dpt). -/

namespace Sys2Proof.Machine

/-- The common frame of every DPT command, 41_dpt R93: the length check, then the value, then DPT_RESULT and
DPT_OK. The length check comes before any byte is read (60_exceptions R142). `commit` writes the value. -/
def dptCommand (need : Nat) (s : State) (value : Except Fault (BitVec 32))
    (commit : BitVec 32 → State → State := setDptResult) : Host.Outcome State Fault Refusal :=
  if s.msgLen.toNat < need then .next (raiseError .errDptLen s)
  else
    match value with
    | .ok v    => .next (complete .dptOk (commit v s))
    | .error f => .fault f

/-- The one value byte P[1] (30_encoding R84). -/
def dptByte (s : State) : Except Fault Byte := readByte s .payload 1

/-- BE16(P[1], P[2]) (30_encoding R84). -/
def dptWord16 (s : State) : Except Fault (BitVec 16) := do
  let b1 ← readByte s .payload 1
  let b2 ← readByte s .payload 2
  pure (be16 b1 b2)

/-- BE32(P[1], P[2], P[3], P[4]) (30_encoding R84). -/
def dptWord32 (s : State) : Except Fault (BitVec 32) := do
  let b1 ← readByte s .payload 1
  let b2 ← readByte s .payload 2
  let b3 ← readByte s .payload 3
  let b4 ← readByte s .payload 4
  pure (be32 b1 b2 b3 b4)

/-- DPT.BOOL, 41_dpt R95: zext_32(P[1][0]). -/
def execDptBool (s : State) : Host.Outcome State Fault Refusal :=
  dptCommand 2 s ((dptByte s).map fun b => (b.extractLsb' 0 1).setWidth 32)

/-- DPT.INT8, 41_dpt R96: sext_32(P[1]). -/
def execDptInt8 (s : State) : Host.Outcome State Fault Refusal :=
  dptCommand 2 s ((dptByte s).map fun b => b.signExtend 32)

/-- DPT.UINT8, 41_dpt R97: zext_32(P[1]). -/
def execDptUint8 (s : State) : Host.Outcome State Fault Refusal :=
  dptCommand 2 s ((dptByte s).map fun b => b.setWidth 32)

/-- DPT.INT16, 41_dpt R98: sext_32(BE16(P[1], P[2])). -/
def execDptInt16 (s : State) : Host.Outcome State Fault Refusal :=
  dptCommand 3 s ((dptWord16 s).map fun w => w.signExtend 32)

/-- DPT.UINT16, 41_dpt R99: zext_32(BE16(P[1], P[2])). -/
def execDptUint16 (s : State) : Host.Outcome State Fault Refusal :=
  dptCommand 3 s ((dptWord16 s).map fun w => w.setWidth 32)

/-- Whether the next free draw takes the greater neighbour (41_dpt R100, FAITHFUL; a free value). -/
def nextDraw (s : State) : Bool := Config.freeRoundUp s.draws

/-- The draws taken after one more DPT.FLOAT16: FAITHFUL takes one each time, EXACT none (41_dpt R100). -/
def drawsAfter (s : State) : Nat :=
  match s.params.dpt9Rounding with
  | .exact    => s.draws
  | .faithful => s.draws + 1

/-- DPT_RESULT <- v of DPT.FLOAT16, which under FAITHFUL also uses up the draw its value took. -/
def commitFloat16 (v : BitVec 32) (s : State) : State := { setDptResult v s with draws := drawsAfter s }

/-- DPT.FLOAT16, 41_dpt R101: round32(M * 2^E / 100). -/
def execDptFloat16 (s : State) : Host.Outcome State Fault Refusal :=
  dptCommand 3 s ((dptWord16 s).map (dpt9Value s.params.dpt9Mantissa s.params.dpt9Rounding (nextDraw s))) commitFloat16

/-- DPT.INT32, 41_dpt R102: BE32(P[1], P[2], P[3], P[4]). -/
def execDptInt32 (s : State) : Host.Outcome State Fault Refusal := dptCommand 5 s (dptWord32 s)

/-- DPT.UINT32, 41_dpt R103: BE32(P[1], P[2], P[3], P[4]). -/
def execDptUint32 (s : State) : Host.Outcome State Fault Refusal := dptCommand 5 s (dptWord32 s)

/-- DPT.FLOAT32, 41_dpt R104: the pattern BE32(P[1], P[2], P[3], P[4]), bit for bit. -/
def execDptFloat32 (s : State) : Host.Outcome State Fault Refusal := dptCommand 5 s (dptWord32 s)

end Sys2Proof.Machine
end

