-- ==== Sys2Proof/Machine/Frame.lean ====
section
/-! DEFINITION. The frame commands: DECODE (42_decode) and ENCODE (43_encode). -/

namespace Sys2Proof.Machine

/-! ## DECODE -/

/-- The header checks of DECODE, 42_decode R108 (ANY) and R109 (ALL). -/
def checkHeader (p : Params) (hl ver : Byte) (svc : BitVec 16) : Except Stop Unit :=
  let badLen := hl != headerLen
  let badVer := ver != protocolVersion
  let badSvc := svc != p.svcRoutingInd
  match p.hdrCheckMode with
  | .any => do
    discardIf badLen .discHdrLen
    discardIf badVer .discHdrVersion
    discardIf badSvc .discHdrService
  | .all => discardIf (badLen && badVer && badSvc) .discHdrAll

/-- The checks of DECODE in the order of 42_decode R105 (R107 to R115). On acceptance it answers N, the
additional-info length, and L = data_len. -/
def checkDatagram (s : State) : Except Stop (Nat × Byte) := do
  discardIf (decide (s.rxlen.toNat < 6)) .discShortHeader
  let hl ← rxByte s 0
  let ver ← rxByte s 1
  let svcHi ← rxByte s 2
  let svcLo ← rxByte s 3
  checkHeader s.params hl ver (be16 svcHi svcLo)
  discardIf (decide (s.rxlen.toNat < 8)) .discTruncated
  let code ← rxByte s 6
  discardIf (code != msgCodeLDataInd) .discMsgcode
  let addinfo ← rxByte s 7
  let n := addinfo.toNat
  discardIf (decide (s.rxlen.toNat < fixedLen + n)) .discTruncated
  let c2 ← rxByte s (9 + n)
  discardIf (!dat s.params.ctrlLayout c2) .discNotGroup
  let l ← rxByte s (14 + n)
  discardIf (l == 0) .discDlenZero
  discardIf (decide (s.params.maxPayload.toNat < l.toNat)) .discDlenMax
  discardIf (decide (s.rxlen.toNat < fixedLen + n + l.toNat)) .discTruncated
  pure (n, l)

/-- The message of an accepted datagram, 42_decode R116, its bytes read in the order of R105. -/
def readMessage (s : State) (n : Nat) (l : Byte) : Except Stop Message := do
  let pci ← rxByte s (15 + n)
  let d0 ← rxByte s (16 + n)
  let srcHi ← rxByte s (10 + n)
  let srcLo ← rxByte s (11 + n)
  let dstHi ← rxByte s (12 + n)
  let dstLo ← rxByte s (13 + n)
  let rest ← rxBytes s (17 + n) (l.toNat - 1)
  pure { ct := commandType pci d0, src := be16 srcHi srcLo, dst := be16 dstHi dstLo,
         len := l, bytes := stripFragment d0 :: rest }

/-- The commit and delivery of an accepting DECODE (42_decode R116, R117). -/
def acceptMessage (m : Message) (s : State) : State := complete .delivered (deliver m (commitMessage m s))

/-- DECODE, 42_decode R105. Every discard writes STATUS alone (60_exceptions R137). -/
def execDecode (s : State) : Host.Outcome State Fault Refusal :=
  commandOutcome s do
    let (n, l) ← checkDatagram s
    let m ← readMessage s n l
    pure (acceptMessage m s)

/-! ## ENCODE -/

/-- Whether ENCODE's length check fails, 43_encode R122. -/
def encodeLenBad (s : State) : Bool := s.msgLen == 0 || decide (s.params.maxPayload.toNat < s.msgLen.toNat)

/-- The 16 bytes before the payload of the datagram ENCODE builds, 43_encode R123 to R127. -/
def encodeHeader (s : State) : List Byte :=
  [headerLen, protocolVersion]
    ++ bytes16 s.params.svcRoutingInd
    ++ bytes16 (BitVec.ofNat 16 (fixedLen + s.msgLen.toNat))
    ++ [msgCodeLDataInd, encAddinfoLen, s.params.encCtrl1, s.params.encCtrl2 ||| datMask s.params.ctrlLayout]
    ++ bytes16 s.msgSrc
    ++ bytes16 s.msgDst
    ++ [s.msgLen, pciOf s.params.encTpci s.msgCt]

/-- The payload bytes as ENCODE emits them: the command type's low bits enter data[0] (43_encode R127). -/
def encodeData (ct : BitVec 4) : List Byte → List Byte
  | [] => []
  | p0 :: rest => data0Of ct p0 :: rest

/-- A datagram written to TXBUF with its length in TXLEN (43_encode R128). -/
def commitDatagram (bytes : List Byte) (s : State) : State :=
  { s.write .tx 0 bytes with txlen := BitVec.ofNat 16 bytes.length }

/-- ENCODE, 43_encode R121. "TXLEN <- 0; raise Error(ERR_ENC_LEN)" on a bad length (R122), before any byte is read
(60_exceptions R142). -/
def execEncode (s : State) : Host.Outcome State Fault Refusal :=
  if encodeLenBad s then .next (raiseError .errEncLen { s with txlen := 0 })
  else
    match readBytes s .payload 0 s.msgLen.toNat with
    | .ok bytes => .next (complete .encoded (commitDatagram (encodeHeader s ++ encodeData s.msgCt bytes) s))
    | .error f  => .fault f

end Sys2Proof.Machine
end

