-- ==== Sys2Proof/Machine/Dispatch.lean ====
section
/-! DEFINITION. One arm per command, each a direct call of its meaning. -/

namespace Sys2Proof.Machine

/-- The command engine's execution of one command (10_state R16, 30_encoding R65). -/
def exec (i : Instr) (s : State) : Host.Outcome State Fault Refusal :=
  match i with
  | .decode => Sys2Proof.Machine.execDecode s
  | .encode => Sys2Proof.Machine.execEncode s
  | .dptBool => Sys2Proof.Machine.execDptBool s
  | .dptInt8 => Sys2Proof.Machine.execDptInt8 s
  | .dptUint8 => Sys2Proof.Machine.execDptUint8 s
  | .dptInt16 => Sys2Proof.Machine.execDptInt16 s
  | .dptUint16 => Sys2Proof.Machine.execDptUint16 s
  | .dptFloat16 => Sys2Proof.Machine.execDptFloat16 s
  | .dptInt32 => Sys2Proof.Machine.execDptInt32 s
  | .dptUint32 => Sys2Proof.Machine.execDptUint32 s
  | .dptFloat32 => Sys2Proof.Machine.execDptFloat32 s

end Sys2Proof.Machine
end

