-- ==== Sys2Proof/Machine/Step.lean ====
section
/-! DEFINITION. One step of KNXM: the agent whose turn it is moves (00_scope R13, 20_memory R51). -/

namespace Sys2Proof.Machine

/-- The command engine's step: it "executes the command selected by `pending`" (10_state R16), an illegal one by
30_encoding R66. With no command pending it has nothing to do. -/
def engineStep (s : State) : Host.Outcome State Fault Refusal :=
  match s.pending with
  | none => .next s
  | some c =>
    match decode c with
    | .ok i    => exec i s
    | .error _ => .next (illegalCommand s)

/-- One step: the first turn of the agenda. A WAIT is "enabled only when BUSY = 0 and does nothing"
(70_reset_and_hazards R163), so while BUSY = 1 the engine moves in its place and the WAIT stays. With no turn left
the engine moves if a command is pending (R162), and otherwise the block holds its state (60_exceptions R150). -/
def step (s : State) : Host.Outcome State Fault Refusal :=
  match s.agenda with
  | []                        => engineStep s
  | .engine :: rest           => engineStep (s.withAgenda rest)
  | .reset :: rest            => .next (takeReset (s.withAgenda rest))
  | .host (.rd a _) :: rest   => hostRead a (s.withAgenda rest)
  | .host (.wr a v) :: rest   => hostWrite a v (s.withAgenda rest)
  | .host .wait :: rest       => if s.busy then engineStep s else .next (s.withAgenda rest)

/-- The command word of a table row latched as a CMD write latches it (10_state R16), with the engine's turn next.
KNXM fetches no instruction: `pending` is the one place a command runs from (20_memory R55; log entry 9). -/
def State.withFetchWord (s : State) (_nbits w : Nat) : State :=
  (latchCommand (BitVec.ofNat 8 w) s).withAgenda (.engine :: s.agenda)

end Sys2Proof.Machine
end

