-- ==== Sys2Proof/Safety.lean ====
section
/-! DEFINITION. The terms claims are stated in: what a state holds as the spec's rules name it, the invariants of the
machine, final states, and agendas that respect the host's duties. -/

namespace Sys2Proof.Machine

/-! ## Reading a state as the rules do -/

/-- The bytes of a store from `off` on, `n` of them, have all been written (10_state R32). -/
abbrev Written (s : State) (st : Store) (off n : Nat) : Prop := ∀ k < n, (memGet (s.store st) (off + k)).isSome

/-- A byte of a store, for a byte that has been written; claims use it only of such bytes. -/
def State.byteAt (s : State) (st : Store) (k : Nat) : Byte := (memGet (s.store st) k).getD 0

/-- P[k] (00_scope R8). -/
def State.p (s : State) (k : Nat) : Byte := s.byteAt .payload k

/-- RX[k] (00_scope R8). -/
def State.rxAt (s : State) (k : Nat) : Byte := s.byteAt .rx k

/-- BE16(P[1], P[2]) as a number (00_scope R8). -/
def State.p16 (s : State) : Nat := (s.p 1).toNat * 2 ^ 8 + (s.p 2).toNat

/-- BE32(P[1], P[2], P[3], P[4]) as a number (00_scope R8). -/
def State.p32 (s : State) : Nat :=
  (s.p 1).toNat * 2 ^ 24 + (s.p 2).toNat * 2 ^ 16 + (s.p 3).toNat * 2 ^ 8 + (s.p 4).toNat

/-! ## DECODE as 42_decode states it -/

/-- BE16 of RX[2] and RX[3]: the service type (30_encoding R68). -/
def State.rxService (s : State) : Nat := (s.rxAt 2).toNat * 2 ^ 8 + (s.rxAt 3).toNat

/-- N = RX[7] (30_encoding R69). -/
def State.rxN (s : State) : Nat := (s.rxAt 7).toNat

/-- L = RX[14+N] (30_encoding R69). -/
def State.rxL (s : State) : Nat := (s.rxAt (14 + s.rxN)).toNat

/-- The code of the first check of 42_decode R105 that a datagram fails, in the order of R107 to R115 (60_exceptions
R144); `none` when every check passes. -/
def State.firstFailure (s : State) : Option ResultCode :=
  let badLen := (s.rxAt 0).toNat ≠ 0x06
  let badVer := (s.rxAt 1).toNat ≠ 0x10
  let badSvc := s.rxService ≠ s.params.svcRoutingInd.toNat
  let len := s.rxlen.toNat
  if len < 6 then some .discShortHeader
  else if s.params.hdrCheckMode = .any ∧ badLen then some .discHdrLen
  else if s.params.hdrCheckMode = .any ∧ badVer then some .discHdrVersion
  else if s.params.hdrCheckMode = .any ∧ badSvc then some .discHdrService
  else if s.params.hdrCheckMode = .all ∧ badLen ∧ badVer ∧ badSvc then some .discHdrAll
  else if len < 8 then some .discTruncated
  else if (s.rxAt 6).toNat ≠ 0x29 then some .discMsgcode
  else if len < 16 + s.rxN then some .discTruncated
  else if dat s.params.ctrlLayout (s.rxAt (9 + s.rxN)) = false then some .discNotGroup
  else if s.rxL = 0 then some .discDlenZero
  else if s.params.maxPayload.toNat < s.rxL then some .discDlenMax
  else if len < 16 + s.rxN + s.rxL then some .discTruncated
  else none

/-- The acceptance condition of 42_decode R118, which no order of checks enters. -/
def State.accepts (s : State) : Prop :=
  let okLen := (s.rxAt 0).toNat = 0x06
  let okVer := (s.rxAt 1).toNat = 0x10
  let okSvc := s.rxService = s.params.svcRoutingInd.toNat
  6 ≤ s.rxlen.toNat
  ∧ (s.params.hdrCheckMode = .any → okLen ∧ okVer ∧ okSvc)
  ∧ (s.params.hdrCheckMode = .all → okLen ∨ okVer ∨ okSvc)
  ∧ 8 ≤ s.rxlen.toNat
  ∧ (s.rxAt 6).toNat = 0x29
  ∧ 16 + s.rxN ≤ s.rxlen.toNat
  ∧ dat s.params.ctrlLayout (s.rxAt (9 + s.rxN)) = true
  ∧ 1 ≤ s.rxL ∧ s.rxL ≤ s.params.maxPayload.toNat
  ∧ 16 + s.rxN + s.rxL ≤ s.rxlen.toNat

/-- Whether the header fails its check under the build's mode (42_decode R108, R109). -/
abbrev State.headerFails (s : State) : Prop :=
  (s.params.hdrCheckMode = .any
      ∧ ((s.rxAt 0).toNat ≠ 0x06 ∨ (s.rxAt 1).toNat ≠ 0x10 ∨ s.rxService ≠ s.params.svcRoutingInd.toNat))
    ∨ (s.params.hdrCheckMode = .all
      ∧ (s.rxAt 0).toNat ≠ 0x06 ∧ (s.rxAt 1).toNat ≠ 0x10 ∧ s.rxService ≠ s.params.svcRoutingInd.toNat)

/-- The offsets of RXBUF that DECODE reads, in the order of 42_decode R105, up to the check that discards. Where a byte among
them was never written, only the offsets up to the first such one mean anything: which they are depends on the bytes before
it alone. The order within one line of R105 is deduced (log entry 17). -/
def State.decodeReads (s : State) : List Nat :=
  let len := s.rxlen.toNat
  let n := s.rxN
  let toDat := [0, 1, 2, 3, 6, 7, 9 + n]
  if len < 6 then []
  else if s.headerFails ∨ len < 8 then [0, 1, 2, 3]
  else if (s.rxAt 6).toNat ≠ 0x29 then [0, 1, 2, 3, 6]
  else if len < 16 + n then [0, 1, 2, 3, 6, 7]
  else if dat s.params.ctrlLayout (s.rxAt (9 + n)) = false then toDat
  else if s.rxL = 0 ∨ s.params.maxPayload.toNat < s.rxL ∨ len < 16 + n + s.rxL then toDat ++ [14 + n]
  else toDat ++ [14 + n, 15 + n, 16 + n, 10 + n, 11 + n, 12 + n, 13 + n] ++ (List.range (s.rxL - 1)).map (17 + n + ·)

/-- The first byte DECODE reads that was never written (60_exceptions R140). -/
def State.firstUnwrittenRead (s : State) : Option Nat := s.decodeReads.find? fun k => (memGet s.rx k).isNone

/-- The offsets of RXBUF that no DECODE reads (42_decode R119): total_len (4, 5), the additional info and control_1
(8 to 8+N), the bytes after the frame (from 16+N+L), and the bytes not received (from RXLEN). -/
def State.unreadByDecode (s : State) (k : Nat) : Prop :=
  k = 4 ∨ k = 5 ∨ (8 ≤ k ∧ k ≤ 8 + s.rxN) ∨ 16 + s.rxN + s.rxL ≤ k ∨ s.rxlen.toNat ≤ k

/-! ## ENCODE as 43_encode states it -/

/-- Byte k of the datagram ENCODE builds (43_encode R121, R123 to R127), as a number. -/
def State.encodedByte (s : State) (k : Nat) : Nat :=
  let total := 16 + s.msgLen.toNat
  let svc := s.params.svcRoutingInd.toNat
  if k = 0 then 0x06
  else if k = 1 then 0x10
  else if k = 2 then svc / 256
  else if k = 3 then svc % 256
  else if k = 4 then total / 256
  else if k = 5 then total % 256
  else if k = 6 then 0x29
  else if k = 7 then 0x00
  else if k = 8 then s.params.encCtrl1.toNat
  else if k = 9 then (s.params.encCtrl2 ||| datMask s.params.ctrlLayout).toNat
  else if k = 10 then s.msgSrc.toNat / 256
  else if k = 11 then s.msgSrc.toNat % 256
  else if k = 12 then s.msgDst.toNat / 256
  else if k = 13 then s.msgDst.toNat % 256
  else if k = 14 then s.msgLen.toNat
  else if k = 15 then s.params.encTpci.toNat * 4 + s.msgCt.toNat / 4
  else if k = 16 then (s.p 0).toNat % 64 + s.msgCt.toNat % 4 * 64
  else (s.p (k - 16)).toNat

/-! ## DPT.FLOAT16 as 41_dpt R100 states it -/

/-- The signed mantissa M of w = BE16(P[1], P[2]) (41_dpt R100): S = w[15], m = w[10:0]. -/
def dpt9M (mode : Dpt9Mantissa) (w : Nat) : Int :=
  let m : Int := (w % 2 ^ 11 : Nat)
  if w < 2 ^ 15 then m
  else
    match mode with
    | .twos12    => m - 2048
    | .signMag11 => -m

/-- The numerator over 100 of the exact result q = M * 2^E / 100, with E = w[14:11] (41_dpt R100). -/
def dpt9Q (mode : Dpt9Mantissa) (w : Nat) : Int := dpt9M mode w * 2 ^ (w / 2 ^ 11 % 16)

/-! ## Invariants -/

/-- What every state keeps that a run can reach: the stores in canonical form, a legal build, and RESULT = NONE while
BUSY = 1 (10_state R17). -/
def State.inv (s : State) : Prop :=
  s.memWf = true ∧ s.params.legal = true ∧ (s.busy = true → s.result = .none)

/-- TXBUF holds a datagram of TXLEN bytes, or TXLEN = 0 and it holds none (10_state R22, R23): its length is 17 to 271,
every one of its bytes has been written, and its header, total length, message code, additional-info length and
data_len are those of 43_encode R123 to R125 and R127. -/
def State.txFrame (s : State) : Prop :=
  s.txlen.toNat = 0 ∨
    (17 ≤ s.txlen.toNat ∧ s.txlen.toNat ≤ 271
      ∧ Written s .tx 0 s.txlen.toNat
      ∧ s.byteAt .tx 0 = 0x06 ∧ s.byteAt .tx 1 = 0x10
      ∧ (s.byteAt .tx 4).toNat * 2 ^ 8 + (s.byteAt .tx 5).toNat = s.txlen.toNat
      ∧ s.byteAt .tx 6 = 0x29 ∧ s.byteAt .tx 7 = 0x00
      ∧ (s.byteAt .tx 14).toNat + 16 = s.txlen.toNat)

/-! ## Runs -/

/-- "The host has performed its last access" (70_reset_and_hazards R164): no turn of the host is left. A WAIT still to come
is one: it stands for the host's reads of STATUS (R163). Turns of the engine and the reset input are no accesses. -/
def State.hostDone (s : State) : Bool :=
  s.agenda.all fun
    | .host _ => false
    | .engine | .reset => true

/-- The state in which a run ends: "the host has performed its last access and STATUS.BUSY = 0"
(70_reset_and_hazards R164). A faulted run has no such state: `step` answers the fault and no state. -/
def State.isFinal (s : State) : Prop := s.hostDone = true ∧ s.busy = false

/-- An agenda whose host accesses keep the duty of 30_encoding R91, whatever turns the engine and the reset input take
among them. `waiting` says that a command was started and no WAIT has followed it yet. -/
def turnsOk (waiting : Bool) : List Turn → Bool
  | [] => true
  | .host .wait :: rest => turnsOk false rest
  | .host (.rd a _) :: rest => (!waiting || a == 0x0001) && turnsOk waiting rest
  | .host (.wr a _) :: rest => !waiting && turnsOk (a == 0x0000) rest
  | .engine :: rest => turnsOk waiting rest
  | .reset :: rest => turnsOk waiting rest

/-- The host's remaining accesses respect hazard HZ1 from this state on (70_reset_and_hazards R155, R156). -/
def State.hostCareful (s : State) : Prop := turnsOk s.busy s.agenda = true

/-! ## Binary32 values as exact integers -/

/-- The value of a finite binary32 pattern, in units of 2^-149 (30_encoding R86). -/
def f32Units (b : BitVec 32) : Int :=
  if b.toNat < 2 ^ 31 then (magUnits b.toNat : Int) else -(magUnits (b.toNat - 2 ^ 31) : Int)

/-- A pattern that is neither an infinity nor a NaN. -/
def f32Finite (b : BitVec 32) : Prop := b.toNat % 2 ^ 31 < 0x7F800000

/-! ## Faults -/

/-- Fault(UNINIT) of 60_exceptions R140, wherever the unwritten byte lies. -/
def FaultsUninit (o : Host.Outcome State Fault Refusal) : Prop := ∃ st k, o = .fault (.uninit st k)

/-! ## Instructions by kind -/

/-- The number of payload bytes a DPT command needs (41_dpt R93); `none` for a frame command. -/
def dptNeed : Instr → Option Nat
  | .decode | .encode => none
  | .dptBool | .dptInt8 | .dptUint8 => some 2
  | .dptInt16 | .dptUint16 | .dptFloat16 => some 3
  | .dptInt32 | .dptUint32 | .dptFloat32 => some 5

end Sys2Proof.Machine
end

