-- ==== Sys2Proof/Certificates/Slice0/Obligations.lean ====
section
/-! DEFINITION. The statements for the provers. Each docstring names the rules of spec/ it formalises. A state `s` is any
state, for any build of 00_scope R5: the parameters stand in `s.params` (log entry 1).
Where a statement reads a field that is the model's own, that field is only how the model shows what the rule says: the
agenda says which agent moves next (log entries 2, 3, 4, 11), the trace which bytes a host read returned and which Deliver
events were emitted (log entry 5), the draws how many free draws were taken (log entry 8), and the store and offset in
Fault.uninit which byte was read (log entry 7). -/

open Sys2Proof Sys2Proof.Machine

/-! ## Encodings -/

/-- 30_encoding R65, row by row, with R63's CLASS field: 0x0 frame commands, 0x1 DPT commands. -/
def Obligations.CommandMapRows : Prop :=
  decode 0x01 = .ok .decode ∧ decode 0x02 = .ok .encode
  ∧ decode 0x10 = .ok .dptBool ∧ decode 0x11 = .ok .dptInt8 ∧ decode 0x12 = .ok .dptUint8
  ∧ decode 0x13 = .ok .dptInt16 ∧ decode 0x14 = .ok .dptUint16 ∧ decode 0x15 = .ok .dptFloat16
  ∧ decode 0x16 = .ok .dptInt32 ∧ decode 0x17 = .ok .dptUint32 ∧ decode 0x18 = .ok .dptFloat32
  ∧ decode 0x00 = .error (.illegalCommand 0x00) ∧ decode 0x19 = .error (.illegalCommand 0x19)
  ∧ ∀ i : Instr, commandClass (encode i) = if dptNeed i = none then 0x0 else 0x1

/-- 30_encoding R67: encoder and decoder of the command byte agree, both ways, and every byte that encodes no command is
illegal: "every CMD value is either one command of R65 or illegal under R66". -/
def Obligations.CommandByteDecodeEncodeAgree : Prop :=
  (∀ i : Instr, i.wf = true ∧ decode (encode i) = .ok i)
  ∧ (∀ (c : Byte) (i : Instr), decode c = .ok i → encode i = c)
  ∧ ∀ c : Byte, (∃ i, decode c = .ok i) ∨ decode c = .error (.illegalCommand c)

/-- 30_encoding R90: the fields of an access word; a host program survives encoding to access words and back, with every
address and byte; and a list of access words that stands for a program is that program's encoding (which words stand for no
access is deduced from R90's table: log entry 14). A read written without an expected value is one that expects 0x00: the
model's choice (log entry 22). -/
def Obligations.AccessWordsDecodeEncodeAgree : Prop :=
  (∀ (a : Addr) (v : Byte), (encodeAccess (.wr a v)).toNat = 1 * 2 ^ 30 + a.toNat * 2 ^ 8 + v.toNat
    ∧ (encodeAccess (.rd a v)).toNat = 2 * 2 ^ 30 + a.toNat * 2 ^ 8 + v.toNat)
  ∧ encodeAccess .wait = 0xC0000100
  ∧ (∀ p : List Access, decodeProgram (encodeProgram p) = some p)
  ∧ ∀ (ws : List (BitVec 32)) (p : List Access), decodeProgram ws = some p → encodeProgram p = ws

/-- 30_encoding R81: the command type assembled from pci bits 1..0 and data[0] bits 7..6, split again, and the round trip. -/
def Obligations.CommandTypeSplitRoundTrip : Prop :=
  (∀ pci d0 : Byte, (commandType pci d0).toNat = pci.toNat % 4 * 4 + d0.toNat / 64)
  ∧ ∀ (tpci : BitVec 6) (ct : BitVec 4) (p0 : Byte),
    (pciOf tpci ct).toNat = tpci.toNat * 4 + ct.toNat / 4
    ∧ (data0Of ct p0).toNat = (ct.toNat % 4) * 64 + p0.toNat % 64
    ∧ commandType (pciOf tpci ct) (data0Of ct p0) = ct

/-- 30_encoding R76, R77, R78: the fields of the control bytes under both layouts, and the DAT bit. -/
def Obligations.ControlFieldsUnderBothLayouts : Prop :=
  (∀ c1 : Byte,
    c1.toNat = (ctrl1Confirm .knx c1).toNat + (ctrl1AckRequest .knx c1).toNat * 2 + (ctrl1Priority .knx c1).toNat * 4
      + (ctrl1SystemBroadcast .knx c1).toNat * 16 + (ctrl1Repeat .knx c1).toNat * 32 + (ctrl1Reserved .knx c1).toNat * 64
      + (ctrl1FrameType .knx c1).toNat * 128
    ∧ c1.toNat = (ctrl1Confirm .docLiteral c1).toNat * 128 + (ctrl1AckRequest .docLiteral c1).toNat * 64
      + (ctrl1Priority .docLiteral c1).toNat * 16 + (ctrl1SystemBroadcast .docLiteral c1).toNat * 8
      + (ctrl1Repeat .docLiteral c1).toNat * 4 + (ctrl1Reserved .docLiteral c1).toNat * 2
      + (ctrl1FrameType .docLiteral c1).toNat)
  ∧ ∀ c2 : Byte,
    c2.toNat = (extendedFrameFormat .knx c2).toNat + (hopCount .knx c2).toNat * 16 + (dat .knx c2).toNat * 128
    ∧ c2.toNat = (extendedFrameFormat .docLiteral c2).toNat * 16 + (hopCount .docLiteral c2).toNat * 2
      + (dat .docLiteral c2).toNat

/-- 10_state R18: each RESULT name's code. R19: no code is outside that table, "The class of a code is its value's bits 6..4",
and no two names share a code. -/
def Obligations.ResultClassIsBitsSixToFour : Prop :=
  (ResultCode.none.code = 0x00 ∧ ResultCode.delivered.code = 0x01 ∧ ResultCode.encoded.code = 0x02
    ∧ ResultCode.dptOk.code = 0x03 ∧ ResultCode.discShortHeader.code = 0x10 ∧ ResultCode.discHdrLen.code = 0x11
    ∧ ResultCode.discHdrVersion.code = 0x12 ∧ ResultCode.discHdrService.code = 0x13 ∧ ResultCode.discHdrAll.code = 0x14
    ∧ ResultCode.discTruncated.code = 0x15 ∧ ResultCode.discMsgcode.code = 0x16 ∧ ResultCode.discNotGroup.code = 0x17
    ∧ ResultCode.discDlenZero.code = 0x18 ∧ ResultCode.discDlenMax.code = 0x19 ∧ ResultCode.errEncLen.code = 0x20
    ∧ ResultCode.errDptLen.code = 0x30 ∧ ResultCode.errIllegalCmd.code = 0x7F)
  ∧ (∀ r : ResultCode, r.code.toNat ∈ [0x00, 0x01, 0x02, 0x03, 0x10, 0x11, 0x12, 0x13, 0x14, 0x15, 0x16, 0x17, 0x18, 0x19, 0x20,
    0x30, 0x7F])
  ∧ (∀ r : ResultCode, classBits r.code = BitVec.ofNat 3 (r.code.toNat / 16))
  ∧ classOfBits 0b000 = some .noneOrSuccess ∧ classOfBits 0b001 = some .discard ∧ classOfBits 0b010 = some .encodeError
  ∧ classOfBits 0b011 = some .dptError ∧ classOfBits 0b111 = some .illegalCommand
  ∧ (∀ r : ResultCode, (classOfBits (classBits r.code)).isSome = true)
  ∧ (∀ r q : ResultCode, r.code = q.code → r = q)
  ∧ ∀ r : ResultCode, classOfBits (classBits r.code) = some .discard ↔ 0x10 ≤ r.code.toNat ∧ r.code.toNat ≤ 0x19

/-! ## The machine's step -/

/-- 10_state R16: the engine's turn runs the decoded pending command, and so does a waiting host's turn
(70_reset_and_hazards R163) and a machine with no turn left (R162). That turns stand in an agenda is the model's choice (log
entries 2, 3, 4). -/
def Obligations.StepRunsTheDecodedCommand : Prop :=
  ∀ (s : State) (c : Byte) (i : Instr) (rest : List Turn), s.pending = some c → decode c = .ok i →
    (s.agenda = .engine :: rest → step s = exec i { s with agenda := rest })
    ∧ (s.agenda = .host .wait :: rest → step s = exec i s)
    ∧ (s.agenda = [] → step s = exec i s)

/-- What the other turns do: a host access is a host read or write of the state with that turn taken; a WAIT while BUSY = 0
and an engine turn with nothing pending do nothing; with no turn left and nothing pending the state is held
(60_exceptions R150). The turns themselves are the model's own (log entries 2 to 4 and 11). -/
def Obligations.StepTakesTheFirstTurn : Prop :=
  ∀ (s : State) (rest : List Turn),
    (∀ a e, s.agenda = .host (.rd a e) :: rest → step s = hostRead a { s with agenda := rest })
    ∧ (∀ a v, s.agenda = .host (.wr a v) :: rest → step s = hostWrite a v { s with agenda := rest })
    ∧ (s.pending = none → s.agenda = .host .wait :: rest → step s = .next { s with agenda := rest })
    ∧ (s.pending = none → s.agenda = .engine :: rest → step s = .next { s with agenda := rest })
    ∧ (s.pending = none → s.agenda = [] → step s = .next s)

/-- 30_encoding R66: a CMD value in no row of the command map ends with ERR_ILLEGAL_CMD and changes nothing else, in the
engine's turn, a waiting host's turn (70_reset_and_hazards R163) and with no turn left (R162). The turns are the model's
choice (log entries 2, 3, 4), so the statement is derived. -/
def Obligations.IllegalCommandWritesStatusOnly : Prop :=
  ∀ (s : State) (c : Byte), s.pending = some c → (∀ i : Instr, encode i ≠ c) →
    ∃ t, engineStep s = .next t ∧ t = { s with result := .errIllegalCmd, pending := none } ∧ t.status = 0x7F
      ∧ (s.agenda = [] → step s = .next t)
      ∧ ∀ rest, (s.agenda = .engine :: rest → step s = .next { t with agenda := rest })
        ∧ (s.agenda = .host .wait :: rest → step s = .next t)

/-- 10_state R16: the CMD write while BUSY = 0, in one step; the engine's one step that then executes the command the byte
selects and leaves BUSY = 0; the read of CMD; and the hazard of a second CMD write before it. -/
def Obligations.CmdWriteLatchesTheCommand : Prop :=
  State.reset.cmd = 0x00 ∧
  ∀ (s : State) (v : Byte) (rest : List Turn), s.pending = none → s.agenda = .host (.wr 0x0000 v) :: rest →
    ∃ t, step s = .next t ∧ t = { s with cmd := v, result := .none, pending := some v, agenda := rest }
      ∧ t.status = 0x80
      ∧ (∀ i, decode v = .ok i → engineStep t = exec i t)
      ∧ (∀ u, engineStep t = .next u → u.busy = false ∧ u.cmd = v
          ∧ hostRead 0x0000 u = .next { u with trace := .read 0x0000 v :: u.trace })
      ∧ ∀ w, hostWrite 0x0000 w t = .fault .hazardBusy

/-- 10_state R17: STATUS shows BUSY in bit 7 and RESULT in bits 6..0, reads 0x00 after reset, and ignores host writes. That
RESULT is NONE while BUSY = 1 is part of `inv`. -/
def Obligations.StatusByteShowsBusyAndResult : Prop :=
  State.reset.status = 0x00 ∧
  ∀ s : State,
    s.status.toNat = (if s.pending.isSome then 128 else 0) + s.result.code.toNat
    ∧ (s.inv → s.pending.isSome = true → s.status = 0x80)
    ∧ hostRead 0x0001 s = .next { s with trace := .read 0x0001 s.status :: s.trace }
    ∧ ∀ v, s.pending = none → hostWrite 0x0001 v s = .next s

/-- 70_reset_and_hazards R151: the effect of reset, in one step, on any state. -/
def Obligations.ResetTakesEveryRegisterToItsResetValue : Prop :=
  ∀ (s : State) (rest : List Turn), s.agenda = .reset :: rest →
    ∃ t, step s = .next t
      ∧ t.cmd = 0 ∧ t.status = 0 ∧ t.rxlen = 0 ∧ t.txlen = 0 ∧ t.msgCt = 0 ∧ t.msgSrc = 0 ∧ t.msgDst = 0
      ∧ t.msgLen = 0 ∧ t.deliverCnt = 0 ∧ t.dptResult = 0
      ∧ t.pending = none
      ∧ (∀ st k, memGet (t.store st) k = none ∧ ∃ st' k', readByte t st k = .error (.uninit st' k'))
      ∧ t.params = s.params

/-- 10_state R15, 70_reset_and_hazards R152: the state after reset is idle, with RESULT = NONE; DECODE, ENCODE and a DPT
command issued first end as 95_test_vectors V-RST says. That the host has no access left at State.reset, so
that it is final (70_reset_and_hazards R164), is the model's choice and no rule of the spec: its agenda is empty (log entry
2). -/
def Obligations.ResetStateIsIdle : Prop :=
  State.reset.status = 0x00 ∧ State.reset.inv ∧ State.reset.txFrame ∧ State.reset.isFinal
  ∧ exec .decode State.reset = .next { State.reset with result := .discShortHeader }
  ∧ exec .encode State.reset = .next { State.reset with result := .errEncLen }
  ∧ exec .dptBool State.reset = .next { State.reset with result := .errDptLen }

/-! ## The host port -/

/-- 70_reset_and_hazards R156: while BUSY = 1 a read of STATUS returns 0x80, and every other access is the hazard. The value
0x80 needs RESULT = NONE, which `inv` gives (10_state R17). -/
def Obligations.BusyAllowsOnlyStatusReads : Prop :=
  ∀ s : State, s.pending.isSome = true →
    (s.inv → hostRead 0x0001 s = .next { s with trace := .read 0x0001 0x80 :: s.trace })
    ∧ (∀ a : Addr, a ≠ 0x0001 → hostRead a s = .fault .hazardBusy)
    ∧ ∀ (a : Addr) (v : Byte), hostWrite a v s = .fault .hazardBusy

/-- 20_memory R43: an unmapped address reads 0x00 and ignores writes. -/
def Obligations.UnmappedAddressesReadZero : Prop :=
  ∀ (s : State) (a : Addr) (v : Byte), s.pending = none →
    (a.toNat = 0x000E ∨ a.toNat = 0x000F ∨ (0x0016 ≤ a.toNat ∧ a.toNat ≤ 0x001F) ∨ (0x0028 ≤ a.toNat ∧ a.toNat ≤ 0x00FF)
      ∨ (0x01FF ≤ a.toNat ∧ a.toNat ≤ 0x03FF) ∨ 0x0A00 ≤ a.toNat) →
    hostRead a s = .next { s with trace := .read a 0x00 :: s.trace } ∧ hostWrite a v s = .next s

/-- 20_memory R44: writes to read-only addresses are ignored; MSG_CT keeps bits 3..0 of the byte written. -/
def Obligations.ReadOnlyAddressesIgnoreWrites : Prop :=
  ∀ (s : State) (a : Addr) (v : Byte), s.pending = none →
    ((a.toNat = 0x0001 ∨ a.toNat = 0x0004 ∨ a.toNat = 0x0005 ∨ a.toNat = 0x000C ∨ a.toNat = 0x000D
        ∨ (0x0010 ≤ a.toNat ∧ a.toNat ≤ 0x0015) ∨ (0x0020 ≤ a.toNat ∧ a.toNat ≤ 0x0027)
        ∨ (0x0800 ≤ a.toNat ∧ a.toNat ≤ 0x09FF)) →
      hostWrite a v s = .next s)
    ∧ (a.toNat = 0x0006 → ∃ ct : BitVec 4, ct.toNat = v.toNat % 16 ∧ hostWrite a v s = .next { s with msgCt := ct })

/-- 20_memory R51: a host read returns the byte the host last wrote there, for every writable address but CMD and
MSG_CT, which have statements of their own. -/
def Obligations.HostReadReturnsTheByteWritten : Prop :=
  ∀ (s : State) (a : Addr) (v : Byte), s.pending = none →
    (a.toNat = 0x0002 ∨ a.toNat = 0x0003 ∨ (0x0007 ≤ a.toNat ∧ a.toNat ≤ 0x000B)
      ∨ (0x0100 ≤ a.toNat ∧ a.toNat ≤ 0x01FE) ∨ (0x0400 ≤ a.toNat ∧ a.toNat ≤ 0x07FF)) →
    ∃ t, hostWrite a v s = .next t ∧ hostRead a t = .next { t with trace := .read a v :: t.trace }

/-- 20_memory R47: a host read leaves only the byte it returned; a host write to any address but CMD starts no command and
changes what a read of that one address returns, and no other; both are idempotent. -/
def Obligations.OnlyCmdWritesHaveSideEffects : Prop :=
  (∀ (s t : State) (a : Addr), hostRead a s = .next t →
    ∃ v, t = { s with trace := .read a v :: s.trace } ∧ hostRead a t = .next { t with trace := .read a v :: t.trace })
  ∧ ∀ (s t : State) (a b : Addr) (v : Byte), a ≠ 0x0000 → hostWrite a v s = .next t →
    t.pending = s.pending ∧ t.trace = s.trace
    ∧ hostWrite a v t = .next t
    ∧ (b ≠ a → readPlace t (placeOf b) = readPlace s (placeOf b))

/-- 20_memory R46, with the one-byte registers of R42: the multi-byte registers are big-endian in the map, and a write to one
byte changes only that byte's bits. A host read while BUSY = 0 returns what the address holds. -/
def Obligations.MultiByteRegistersAreBigEndian : Prop :=
  ∀ s : State,
    let word := fun (a b : Addr) (r : BitVec 16) => ∃ hi lo : Byte, readPlace s (placeOf a) = .ok hi
      ∧ readPlace s (placeOf b) = .ok lo ∧ r.toNat = hi.toNat * 256 + lo.toNat
    readPlace s (placeOf 0x0000) = .ok s.cmd ∧ readPlace s (placeOf 0x0007) = .ok s.msgLen
    ∧ (∃ b : Byte, readPlace s (placeOf 0x0006) = .ok b ∧ b.toNat = s.msgCt.toNat)
    ∧ word 0x0002 0x0003 s.rxlen ∧ word 0x0004 0x0005 s.txlen ∧ word 0x0008 0x0009 s.msgSrc
    ∧ word 0x000A 0x000B s.msgDst ∧ word 0x000C 0x000D s.deliverCnt
    ∧ (∃ b3 b2 b1 b0 : Byte,
        readPlace s (placeOf 0x0010) = .ok b3 ∧ readPlace s (placeOf 0x0011) = .ok b2
        ∧ readPlace s (placeOf 0x0012) = .ok b1 ∧ readPlace s (placeOf 0x0013) = .ok b0
        ∧ s.dptResult.toNat = b3.toNat * 2 ^ 24 + b2.toNat * 2 ^ 16 + b1.toNat * 2 ^ 8 + b0.toNat)
    ∧ (s.pending = none → ∀ (a : Addr) (b : Byte), readPlace s (placeOf a) = .ok b →
        hostRead a s = .next { s with trace := .read a b :: s.trace })
    ∧ ∀ v : Byte, s.pending = none →
      (∃ r : BitVec 16, hostWrite 0x0002 v s = .next { s with rxlen := r } ∧ r.toNat = v.toNat * 256 + s.rxlen.toNat % 256)
      ∧ (∃ r : BitVec 16, hostWrite 0x0003 v s = .next { s with rxlen := r }
          ∧ r.toNat = s.rxlen.toNat / 256 * 256 + v.toNat)
      ∧ (∃ r : BitVec 16, hostWrite 0x0008 v s = .next { s with msgSrc := r }
          ∧ r.toNat = v.toNat * 256 + s.msgSrc.toNat % 256)
      ∧ (∃ r : BitVec 16, hostWrite 0x0009 v s = .next { s with msgSrc := r }
          ∧ r.toNat = s.msgSrc.toNat / 256 * 256 + v.toNat)
      ∧ (∃ r : BitVec 16, hostWrite 0x000A v s = .next { s with msgDst := r }
          ∧ r.toNat = v.toNat * 256 + s.msgDst.toNat % 256)
      ∧ ∃ r : BitVec 16, hostWrite 0x000B v s = .next { s with msgDst := r }
          ∧ r.toNat = s.msgDst.toNat / 256 * 256 + v.toNat

/-- 10_state R33, R34: the IDENT and CFG bytes of any build, and the CFG bytes of the default build. -/
def Obligations.IdentAndCfgBytes : Prop :=
  [0, 1, 2, 3, 4, 5, 6, 7].map (cfgByte .default) = [0x00, 0xE6, 0xBC, 0xE0, 0x00, 0x05, 0x30, 0x00] ∧
  ∀ s : State,
    readPlace s (placeOf 0x0014) = .ok 0x4B ∧ readPlace s (placeOf 0x0015) = .ok 0x01
    ∧ (∃ c0 : Byte, readPlace s (placeOf 0x0020) = .ok c0
        ∧ c0.getLsbD 0 = decide (s.params.hdrCheckMode = .all) ∧ c0.getLsbD 1 = decide (s.params.ctrlLayout = .docLiteral)
        ∧ c0.getLsbD 2 = decide (s.params.dpt9Mantissa = .signMag11)
        ∧ c0.getLsbD 3 = decide (s.params.dpt9Rounding = .faithful) ∧ c0.toNat < 16)
    ∧ readPlace s (placeOf 0x0021) = .ok s.params.maxPayload
    ∧ readPlace s (placeOf 0x0022) = .ok s.params.encCtrl1
    ∧ readPlace s (placeOf 0x0023) = .ok s.params.encCtrl2
    ∧ readPlace s (placeOf 0x0024) = .ok (BitVec.ofNat 8 s.params.encTpci.toNat)
    ∧ readPlace s (placeOf 0x0025) = .ok (BitVec.ofNat 8 (s.params.svcRoutingInd.toNat / 256))
    ∧ readPlace s (placeOf 0x0026) = .ok (BitVec.ofNat 8 (s.params.svcRoutingInd.toNat % 256))
    ∧ readPlace s (placeOf 0x0027) = .ok 0x00

/-- 60_exceptions R140: a host read of an unwritten byte of RXBUF, TXBUF or MSG_PAYLOAD is Fault(UNINIT); of a written
one, it returns the byte. The fault's store and offset are the model's record (log entry 7). -/
def Obligations.HostReadOfBuffers : Prop :=
  ∀ (s : State) (a : Addr) (st : Store) (k : Nat), s.pending = none →
    ((st = .payload ∧ k < 255 ∧ a.toNat = 0x0100 + k) ∨ (st = .rx ∧ k < 1024 ∧ a.toNat = 0x0400 + k)
      ∨ (st = .tx ∧ k < 512 ∧ a.toNat = 0x0800 + k)) →
    (memGet (s.store st) k = none → hostRead a s = .fault (.uninit st k))
    ∧ ∀ b, memGet (s.store st) k = some b → hostRead a s = .next { s with trace := .read a b :: s.trace }

/-! ## The DPT commands -/

/-- 41_dpt R95: DPT.BOOL. -/
def Obligations.DptBoolReadsBitZeroOfByteOne : Prop :=
  decode 0x10 = .ok .dptBool ∧ ∀ s : State,
    (s.msgLen.toNat < 2 → exec .dptBool s = .next { s with result := .errDptLen, pending := none })
    ∧ (2 ≤ s.msgLen.toNat → ¬ Written s .payload 1 1 → FaultsUninit (exec .dptBool s))
    ∧ (2 ≤ s.msgLen.toNat → Written s .payload 1 1 →
        exec .dptBool s =
          .next { s with dptResult := if (s.p 1).toNat % 2 = 1 then 1 else 0, result := .dptOk, pending := none })

/-- 41_dpt R96: DPT.INT8. -/
def Obligations.DptInt8SignExtendsByteOne : Prop :=
  decode 0x11 = .ok .dptInt8 ∧ ∀ s : State,
    (s.msgLen.toNat < 2 → exec .dptInt8 s = .next { s with result := .errDptLen, pending := none })
    ∧ (2 ≤ s.msgLen.toNat → ¬ Written s .payload 1 1 → FaultsUninit (exec .dptInt8 s))
    ∧ (2 ≤ s.msgLen.toNat → Written s .payload 1 1 →
        exec .dptInt8 s = .next { s with
          dptResult := BitVec.ofInt 32 (if (s.p 1).toNat < 128 then (s.p 1).toNat else ((s.p 1).toNat : Int) - 256)
          result := .dptOk, pending := none })

/-- 41_dpt R97: DPT.UINT8. -/
def Obligations.DptUint8ZeroExtendsByteOne : Prop :=
  decode 0x12 = .ok .dptUint8 ∧ ∀ s : State,
    (s.msgLen.toNat < 2 → exec .dptUint8 s = .next { s with result := .errDptLen, pending := none })
    ∧ (2 ≤ s.msgLen.toNat → ¬ Written s .payload 1 1 → FaultsUninit (exec .dptUint8 s))
    ∧ (2 ≤ s.msgLen.toNat → Written s .payload 1 1 →
        exec .dptUint8 s =
          .next { s with dptResult := BitVec.ofNat 32 (s.p 1).toNat, result := .dptOk, pending := none })

/-- 41_dpt R98: DPT.INT16. -/
def Obligations.DptInt16SignExtendsBigEndianWord : Prop :=
  decode 0x13 = .ok .dptInt16 ∧ ∀ s : State,
    (s.msgLen.toNat < 3 → exec .dptInt16 s = .next { s with result := .errDptLen, pending := none })
    ∧ (3 ≤ s.msgLen.toNat → ¬ Written s .payload 1 2 → FaultsUninit (exec .dptInt16 s))
    ∧ (3 ≤ s.msgLen.toNat → Written s .payload 1 2 →
        exec .dptInt16 s = .next { s with
          dptResult := BitVec.ofInt 32 (if s.p16 < 2 ^ 15 then s.p16 else (s.p16 : Int) - 2 ^ 16)
          result := .dptOk, pending := none })

/-- 41_dpt R99: DPT.UINT16. -/
def Obligations.DptUint16ZeroExtendsBigEndianWord : Prop :=
  decode 0x14 = .ok .dptUint16 ∧ ∀ s : State,
    (s.msgLen.toNat < 3 → exec .dptUint16 s = .next { s with result := .errDptLen, pending := none })
    ∧ (3 ≤ s.msgLen.toNat → ¬ Written s .payload 1 2 → FaultsUninit (exec .dptUint16 s))
    ∧ (3 ≤ s.msgLen.toNat → Written s .payload 1 2 →
        exec .dptUint16 s =
          .next { s with dptResult := BitVec.ofNat 32 s.p16, result := .dptOk, pending := none })

/-- 41_dpt R101 with R100: DPT.FLOAT16 under both roundings. The free value of FAITHFUL is Config.freeRoundUp (log
entry 8): the statement holds whatever it is. -/
def Obligations.DptFloat16RoundsMantissaTimesPowerOverHundred : Prop :=
  decode 0x15 = .ok .dptFloat16 ∧ ∀ s : State,
    (s.msgLen.toNat < 3 → exec .dptFloat16 s = .next { s with result := .errDptLen, pending := none })
    ∧ (3 ≤ s.msgLen.toNat → ¬ Written s .payload 1 2 → FaultsUninit (exec .dptFloat16 s))
    ∧ (3 ≤ s.msgLen.toNat → Written s .payload 1 2 → s.params.dpt9Rounding = .exact →
        exec .dptFloat16 s = .next { s with
          dptResult := rne32 (dpt9Q s.params.dpt9Mantissa s.p16) 100, result := .dptOk, pending := none })
    ∧ (3 ≤ s.msgLen.toNat → Written s .payload 1 2 → s.params.dpt9Rounding = .faithful →
        ∃ b n, exec .dptFloat16 s = .next { s with dptResult := b, result := .dptOk, pending := none, draws := n }
          ∧ (b = lower32 (dpt9Q s.params.dpt9Mantissa s.p16) 100 ∨ b = upper32 (dpt9Q s.params.dpt9Mantissa s.p16) 100))

/-- 41_dpt R102: DPT.INT32. -/
def Obligations.DptInt32IsTheBigEndianPattern : Prop :=
  decode 0x16 = .ok .dptInt32 ∧ ∀ s : State,
    (s.msgLen.toNat < 5 → exec .dptInt32 s = .next { s with result := .errDptLen, pending := none })
    ∧ (5 ≤ s.msgLen.toNat → ¬ Written s .payload 1 4 → FaultsUninit (exec .dptInt32 s))
    ∧ (5 ≤ s.msgLen.toNat → Written s .payload 1 4 →
        exec .dptInt32 s = .next { s with
          dptResult := BitVec.ofInt 32 (if s.p32 < 2 ^ 31 then s.p32 else (s.p32 : Int) - 2 ^ 32)
          result := .dptOk, pending := none })

/-- 41_dpt R103: DPT.UINT32. -/
def Obligations.DptUint32IsTheBigEndianPattern : Prop :=
  decode 0x17 = .ok .dptUint32 ∧ ∀ s : State,
    (s.msgLen.toNat < 5 → exec .dptUint32 s = .next { s with result := .errDptLen, pending := none })
    ∧ (5 ≤ s.msgLen.toNat → ¬ Written s .payload 1 4 → FaultsUninit (exec .dptUint32 s))
    ∧ (5 ≤ s.msgLen.toNat → Written s .payload 1 4 →
        exec .dptUint32 s =
          .next { s with dptResult := BitVec.ofNat 32 s.p32, result := .dptOk, pending := none })

/-- 41_dpt R104: DPT.FLOAT32: every pattern passes unchanged, NaN payloads included. -/
def Obligations.DptFloat32KeepsEveryPattern : Prop :=
  decode 0x18 = .ok .dptFloat32 ∧ ∀ s : State,
    (s.msgLen.toNat < 5 → exec .dptFloat32 s = .next { s with result := .errDptLen, pending := none })
    ∧ (5 ≤ s.msgLen.toNat → ¬ Written s .payload 1 4 → FaultsUninit (exec .dptFloat32 s))
    ∧ (5 ≤ s.msgLen.toNat → Written s .payload 1 4 → ∃ t,
        exec .dptFloat32 s = .next t ∧ t = { s with dptResult := t.dptResult, result := .dptOk, pending := none }
        ∧ t.dptResult.extractLsb' 24 8 = s.p 1 ∧ t.dptResult.extractLsb' 16 8 = s.p 2
        ∧ t.dptResult.extractLsb' 8 8 = s.p 3 ∧ t.dptResult.extractLsb' 0 8 = s.p 4)

/-- 41_dpt R93, 60_exceptions R142: a short payload fails every DPT command before any byte is read, written or not, and
leaves DPT_RESULT; with its length there, it faults at the first unwritten value byte (the fault's store and offset are the
model's record, log entry 7), and with its bytes written too it completes with DPT_OK. -/
def Obligations.DptCommandsFailShortAndElseComplete : Prop :=
  ∀ (i : Instr) (n : Nat) (s : State), dptNeed i = some n →
    (s.msgLen.toNat < n →
      ∃ t, exec i s = .next t ∧ t = { s with result := .errDptLen, pending := none } ∧ t.status = 0x30)
    ∧ (∀ k, n ≤ s.msgLen.toNat → 1 ≤ k → k < n → Written s .payload 1 (k - 1) → memGet s.payload k = none →
        exec i s = .fault (.uninit .payload k))
    ∧ (n ≤ s.msgLen.toNat → Written s .payload 1 (n - 1) → ∃ t, exec i s = .next t ∧ t.status = 0x03)

/-- Frame of the nine DPT commands (10_state R37): only DPT_RESULT, STATUS and, under FAITHFUL, the model's own count of
draws may change; every other register, every byte of every buffer, the agenda and the trace stay. -/
def Obligations.DptCommandsFrame : Prop :=
  ∀ (i : Instr) (n : Nat) (s t : State), dptNeed i = some n → exec i s = .next t →
    t = { s with dptResult := t.dptResult, result := t.result, pending := none, draws := t.draws }
    ∧ (∀ st k, readByte t st k = readByte s st k)
    ∧ (i ≠ .dptFloat16 ∨ s.params.dpt9Rounding = .exact → t.draws = s.draws)

/-- 41_dpt R93, 00_scope R14: what a DPT command does depends only on MSG_LEN, P[1..need-1], the parameters and, under
FAITHFUL, the draw: "it never reads P[0], MSG_CT, MSG_SRC or MSG_DST". -/
def Obligations.DptDependsOnItsBytesOnly : Prop :=
  ∀ (i : Instr) (n : Nat) (s t : State), dptNeed i = some n → s.msgLen = t.msgLen → s.params = t.params →
    s.draws = t.draws → (∀ k, 1 ≤ k → k < n → memGet s.payload k = memGet t.payload k) →
    match exec i s, exec i t with
    | .next s', .next t' => s'.result = t'.result ∧ (s'.result = .dptOk → s'.dptResult = t'.dptResult)
    | .fault f, .fault g => f = g
    | _, _ => False

/-- 41_dpt R100, EXACT: the result is a finite pattern whose value no finite binary32 value is nearer to q than; where
another value is as near, the result's significand is even. Values are in units of 2^-149, q over 100. -/
def Obligations.Float16ExactIsNearestTiesToEven : Prop :=
  ∀ (mode : Dpt9Mantissa) (up : Bool) (w : BitVec 16) (b' : BitVec 32), f32Finite b' →
    let b := dpt9Value mode .exact up w
    let q := dpt9Q mode w.toNat * unitsPerOne
    f32Finite b
    ∧ (f32Units b * 100 - q).natAbs ≤ (f32Units b' * 100 - q).natAbs
    ∧ ((f32Units b * 100 - q).natAbs = (f32Units b' * 100 - q).natAbs → f32Units b ≠ f32Units b' → b.toNat % 2 = 0)

/-- 41_dpt R100, FAITHFUL: a draw gives "the largest binary32 value <= q" or "the smallest >= q". -/
def Obligations.Float16FaithfulIsANeighbour : Prop :=
  ∀ (mode : Dpt9Mantissa) (w : BitVec 16),
    let lo := dpt9Value mode .faithful false w
    let hi := dpt9Value mode .faithful true w
    let q := dpt9Q mode w.toNat * unitsPerOne
    f32Finite lo ∧ f32Finite hi ∧ f32Units lo * 100 ≤ q ∧ q ≤ f32Units hi * 100
    ∧ ∀ b' : BitVec 32, f32Finite b' →
        (f32Units b' * 100 ≤ q → f32Units b' ≤ f32Units lo) ∧ (q ≤ f32Units b' * 100 → f32Units hi ≤ f32Units b')

/-- 41_dpt R100: no DPT.FLOAT16 result is a NaN, an infinity, a subnormal or -0.0, under any setting. -/
def Obligations.Float16IsNormalOrPlusZero : Prop :=
  ∀ (mode : Dpt9Mantissa) (rounding : Dpt9Rounding) (up : Bool) (w : BitVec 16),
    let b := dpt9Value mode rounding up w
    b = 0x00000000 ∨ (0x00800000 ≤ b.toNat % 2 ^ 31 ∧ b.toNat % 2 ^ 31 < 0x7F800000)

/-- 41_dpt R101 and 95_test_vectors W5, V-F16: worked values of the 2-byte float. -/
def Obligations.Float16WorkedValues : Prop :=
  dpt9Value .twos12 .exact false 0x0C1A = 0x41A80000 ∧ dpt9Value .twos12 .exact false 0x0C90 = 0x41BAE148
  ∧ dpt9Value .twos12 .exact false 0x0A90 = 0x4151EB85 ∧ dpt9Value .twos12 .exact false 0x8A24 = 0xC1F00000
  ∧ dpt9Value .signMag11 .exact false 0x8A24 = 0xC12F5C29 ∧ dpt9Value .twos12 .exact false 0x7FFF = 0x4923C28F
  ∧ dpt9Value .twos12 .exact false 0xF800 = 0xC923D70A ∧ dpt9Value .signMag11 .exact false 0x8000 = 0x00000000
  ∧ dpt9Value .twos12 .faithful false 0x0005 = 0x3D4CCCCC ∧ dpt9Value .twos12 .faithful true 0x0005 = 0x3D4CCCCD

/-! ## DECODE -/

/-- 42_decode R107, before any byte is read, and R110, once the header passes under the build's mode. -/
def Obligations.DecodeDiscardsShortDatagrams : Prop :=
  ∀ s : State,
    (s.rxlen.toNat < 6 → exec .decode s = .next { s with result := .discShortHeader, pending := none })
    ∧ (6 ≤ s.rxlen.toNat → s.rxlen.toNat < 8 → Written s .rx 0 4 →
        (s.params.hdrCheckMode = .any →
          s.rxAt 0 = 0x06 ∧ s.rxAt 1 = 0x10 ∧ s.rxService = s.params.svcRoutingInd.toNat) →
        (s.params.hdrCheckMode = .all →
          s.rxAt 0 = 0x06 ∨ s.rxAt 1 = 0x10 ∨ s.rxService = s.params.svcRoutingInd.toNat) →
        exec .decode s = .next { s with result := .discTruncated, pending := none })

/-- 42_decode R108: under ANY, any one header mismatch discards, and the first in the order header_len,
protocol_version, service_type is reported. -/
def Obligations.AnyHeaderMismatchDiscards : Prop :=
  ∀ s : State, s.params.hdrCheckMode = .any → 6 ≤ s.rxlen.toNat → Written s .rx 0 4 →
    (s.rxAt 0 ≠ 0x06 → exec .decode s = .next { s with result := .discHdrLen, pending := none })
    ∧ (s.rxAt 0 = 0x06 → s.rxAt 1 ≠ 0x10 → exec .decode s = .next { s with result := .discHdrVersion, pending := none })
    ∧ (s.rxAt 0 = 0x06 → s.rxAt 1 = 0x10 → s.rxService ≠ s.params.svcRoutingInd.toNat →
        exec .decode s = .next { s with result := .discHdrService, pending := none })

/-- 42_decode R109: under ALL, DECODE discards with DISC_HDR_ALL only when all three fields differ, and never with the codes of
ANY; otherwise it goes on to R110. -/
def Obligations.AllModeDiscardsOnlyTripleMismatch : Prop :=
  ∀ s : State, s.params.hdrCheckMode = .all → 6 ≤ s.rxlen.toNat → Written s .rx 0 4 →
    (s.rxAt 0 ≠ 0x06 → s.rxAt 1 ≠ 0x10 → s.rxService ≠ s.params.svcRoutingInd.toNat →
        exec .decode s = .next { s with result := .discHdrAll, pending := none })
    ∧ ((s.rxAt 0 = 0x06 ∨ s.rxAt 1 = 0x10 ∨ s.rxService = s.params.svcRoutingInd.toNat) →
        (s.rxlen.toNat < 8 → exec .decode s = .next { s with result := .discTruncated, pending := none })
        ∧ ∀ t, exec .decode s = .next t →
          t.result ≠ .discHdrAll ∧ t.result ≠ .discHdrLen ∧ t.result ≠ .discHdrVersion ∧ t.result ≠ .discHdrService)

/-- 42_decode R105 to R115, 60_exceptions R144: a datagram is discarded with the code of the first failing check in the
order of R105, and nothing but STATUS is written. Only the bytes read up to that check need have been written. -/
def Obligations.DecodeReportsTheFirstFailingCheck : Prop :=
  ∀ (s : State) (r : ResultCode), s.firstUnwrittenRead = none → s.firstFailure = some r →
    exec .decode s = .next { s with result := r, pending := none }

/-- 42_decode R116, R117, R118: a datagram that meets the acceptance condition is delivered: the MSG registers and
P[0..L-1] take the frame's values, DELIVER_CNT advances, one Deliver event is emitted, and nothing else changes. Only such a
datagram is delivered, and a DECODE that does not deliver writes STATUS alone. -/
def Obligations.DecodeDeliversAnAcceptedDatagram : Prop :=
  (∀ s t : State, exec .decode s = .next t → t.result ≠ .delivered → t = { s with result := t.result, pending := none })
  ∧ (∀ s t : State, exec .decode s = .next t → t.result = .delivered → s.accepts)
  ∧ ∀ s : State, s.firstUnwrittenRead = none → s.accepts →
    ∃ t m, exec .decode s = .next t
      ∧ t = { s with
          msgCt := t.msgCt, msgSrc := t.msgSrc, msgDst := t.msgDst, msgLen := t.msgLen, payload := t.payload
          deliverCnt := s.deliverCnt + 1, trace := .deliver m :: s.trace, result := .delivered, pending := none }
      ∧ t.msgCt.toNat = (s.rxAt (15 + s.rxN)).toNat % 4 * 4 + (s.rxAt (16 + s.rxN)).toNat / 64
      ∧ t.msgSrc.toNat = (s.rxAt (10 + s.rxN)).toNat * 256 + (s.rxAt (11 + s.rxN)).toNat
      ∧ t.msgDst.toNat = (s.rxAt (12 + s.rxN)).toNat * 256 + (s.rxAt (13 + s.rxN)).toNat
      ∧ t.msgLen.toNat = s.rxL
      ∧ (∃ b, memGet t.payload 0 = some b ∧ b.toNat = (s.rxAt (16 + s.rxN)).toNat % 64)
      ∧ (∀ k, 1 ≤ k → k < s.rxL → memGet t.payload k = some (s.rxAt (16 + s.rxN + k)))
      ∧ (∀ k, s.rxL ≤ k → memGet t.payload k = memGet s.payload k)
      ∧ m.ct = t.msgCt ∧ m.src = t.msgSrc ∧ m.dst = t.msgDst ∧ m.len = t.msgLen
      ∧ m.bytes.length = s.rxL ∧ ∀ k, k < s.rxL → m.bytes[k]? = memGet t.payload k

/-- 42_decode R118: "accept iff ...", the condition in which no order of checks enters; a datagram not accepted is
discarded. -/
def Obligations.AcceptanceDoesNotDependOnTheOrder : Prop :=
  ∀ s : State, s.firstUnwrittenRead = none →
    ((∃ t, exec .decode s = .next t ∧ t.result = .delivered) ↔ s.accepts)
    ∧ ((∃ r, exec .decode s = .next { s with result := r, pending := none } ∧ s.firstFailure = some r) ↔ ¬ s.accepts)

/-- 42_decode R120 (source properties 8.3 and 8.4) under HDR_CHECK_MODE = ANY: whatever is delivered had the constant header
fields and a group destination, its declared payload within RXLEN. -/
def Obligations.DeliveredDatagramsPassedEveryCheck : Prop :=
  ∀ s t : State, s.params.hdrCheckMode = .any → exec .decode s = .next t → t.result = .delivered →
    s.rxAt 0 = 0x06 ∧ s.rxAt 1 = 0x10 ∧ s.rxService = s.params.svcRoutingInd.toNat ∧ s.rxAt 6 = 0x29
    ∧ dat s.params.ctrlLayout (s.rxAt (9 + s.rxN)) = true
    ∧ 1 ≤ s.rxL ∧ s.rxL ≤ s.params.maxPayload.toNat ∧ 16 + s.rxN + s.rxL ≤ s.rxlen.toNat

/-- Frame of DECODE (10_state R37, 60_exceptions R137): a discard writes STATUS only and emits no event; an acceptance leaves
CMD, RXLEN, RXBUF, TXLEN, TXBUF, DPT_RESULT and every payload byte from data_len on. -/
def Obligations.DecodeFrame : Prop :=
  ∀ s t : State, exec .decode s = .next t →
    (t.result ≠ .delivered → t = { s with result := t.result, pending := none }
      ∧ classOfBits (classBits t.result.code) = some .discard)
    ∧ (t.result = .delivered → t = { s with
          msgCt := t.msgCt, msgSrc := t.msgSrc, msgDst := t.msgDst, msgLen := t.msgLen, payload := t.payload
          deliverCnt := t.deliverCnt, trace := t.trace, result := t.result, pending := none })
    ∧ (∀ k, readByte t .rx k = readByte s .rx k) ∧ (∀ k, readByte t .tx k = readByte s .tx k)
    ∧ ∀ k, t.result ≠ .delivered ∨ t.msgLen.toNat ≤ k → readByte t .payload k = readByte s .payload k

/-- 42_decode R119, 20_memory R58: RXBUF bytes that DECODE never reads make no difference, written or not: total_len, the
additional info, control_1, the bytes after the frame and the bytes from RXLEN on. -/
def Obligations.DecodeIgnoresUnreadBytes : Prop :=
  ∀ (s : State) (rx' : Memory), (∀ k, ¬ s.unreadByDecode k → memGet rx' k = memGet s.rx k) →
    (∀ t, exec .decode s = .next t → exec .decode { s with rx := rx' } = .next { t with rx := rx' })
    ∧ ∀ f, exec .decode s = .fault f → exec .decode { s with rx := rx' } = .fault f

/-- 60_exceptions R140: DECODE faults exactly where a byte it reads was never written, at the first such read in the order
of 42_decode R105, under both header modes; every byte it reads lies below RXLEN and 526 (R106, R119). On data_len it faults
at RX[14+N] (95_test_vectors V-DEC-U1). The fault's offset is the model's record (log entry 7), and the order within one line
of R105 is deduced (log entry 17). -/
def Obligations.DecodeFaultsOnlyOnUnwrittenBytes : Prop :=
  (∀ (s : State) (f : Fault), exec .decode s = .fault f ↔ ∃ k, s.firstUnwrittenRead = some k ∧ f = .uninit .rx k)
  ∧ (∀ (s : State) (k : Nat), k ∈ s.decodeReads → k < s.rxlen.toNat ∧ k < 526)
  ∧ ∀ s : State, s.params.hdrCheckMode = .any → 16 + s.rxN ≤ s.rxlen.toNat → Written s .rx 0 8 →
      s.rxAt 0 = 0x06 → s.rxAt 1 = 0x10 → s.rxService = s.params.svcRoutingInd.toNat → s.rxAt 6 = 0x29 →
      memGet s.rx (9 + s.rxN) = some (s.rxAt (9 + s.rxN)) → dat s.params.ctrlLayout (s.rxAt (9 + s.rxN)) = true →
      memGet s.rx (14 + s.rxN) = none → exec .decode s = .fault (.uninit .rx (14 + s.rxN))

/-! ## ENCODE -/

/-- 43_encode R121, R123 to R128: ENCODE builds the datagram byte by byte, sets TXLEN to 16 + MSG_LEN, and leaves the rest of
TXBUF and every other register. -/
def Obligations.EncodeBuildsTheDatagram : Prop :=
  decode 0x02 = .ok .encode ∧ ∀ s : State, 1 ≤ s.msgLen.toNat → s.msgLen.toNat ≤ s.params.maxPayload.toNat →
    Written s .payload 0 s.msgLen.toNat →
    ∃ t, exec .encode s = .next t
      ∧ t = { s with tx := t.tx, txlen := t.txlen, result := .encoded, pending := none }
      ∧ t.txlen.toNat = 16 + s.msgLen.toNat
      ∧ (∀ k, k < 16 + s.msgLen.toNat → ∃ b, memGet t.tx k = some b ∧ b.toNat = s.encodedByte k)
      ∧ ∀ k, 16 + s.msgLen.toNat ≤ k → memGet t.tx k = memGet s.tx k

/-- 43_encode R122: "ENCODE fails with ERR_ENC_LEN, sets TXLEN to 0 and writes nothing else but STATUS". -/
def Obligations.EncodeRejectsBadLength : Prop :=
  ∀ s : State, s.msgLen.toNat = 0 ∨ s.params.maxPayload.toNat < s.msgLen.toNat →
    exec .encode s = .next { s with txlen := 0, result := .errEncLen, pending := none }

/-- 60_exceptions R140: ENCODE faults at the first unwritten payload byte (its offset is the model's record, log entry 7). -/
def Obligations.EncodeFaultsAtTheFirstUnwrittenByte : Prop :=
  ∀ (s : State) (k : Nat), 1 ≤ s.msgLen.toNat → s.msgLen.toNat ≤ s.params.maxPayload.toNat → k < s.msgLen.toNat →
    Written s .payload 0 k → memGet s.payload k = none → exec .encode s = .fault (.uninit .payload k)

/-- Frame of ENCODE (10_state R37, 43_encode R128): the MSG registers, RXBUF, RXLEN, DELIVER_CNT, DPT_RESULT and every TXBUF
byte outside the datagram stay; where it fails, all of TXBUF stays. -/
def Obligations.EncodeFrame : Prop :=
  ∀ s t : State, exec .encode s = .next t →
    t = { s with tx := t.tx, txlen := t.txlen, result := t.result, pending := none }
    ∧ (∀ k, readByte t .rx k = readByte s .rx k) ∧ (∀ k, readByte t .payload k = readByte s .payload k)
    ∧ ∀ k, t.result ≠ .encoded ∨ 16 + s.msgLen.toNat ≤ k → readByte t .tx k = readByte s .tx k

/-- 43_encode R129: ENCODE, then copying TX[0..TXLEN-1] to RX with RXLEN = TXLEN, then DECODE, delivers the message, under
every build and whatever else the decoding machine holds; P[0] comes back with bits 7..6 cleared (90_conflicts C7), so
unchanged where they were 0. -/
def Obligations.EncodeThenDecodeDeliversTheMessage : Prop :=
  ∀ s : State, 1 ≤ s.msgLen.toNat → s.msgLen.toNat ≤ s.params.maxPayload.toNat → Written s .payload 0 s.msgLen.toNat →
    ∃ t, exec .encode s = .next t ∧ t.result = .encoded ∧
      ∀ d : State, d.params = s.params → d.rxlen = t.txlen → (∀ k, k < t.txlen.toNat → memGet d.rx k = memGet t.tx k) →
        ∃ u, exec .decode d = .next u ∧ u.result = .delivered
          ∧ u.msgCt = s.msgCt ∧ u.msgSrc = s.msgSrc ∧ u.msgDst = s.msgDst ∧ u.msgLen = s.msgLen
          ∧ (∃ b, memGet u.payload 0 = some b ∧ b.toNat = (s.p 0).toNat % 64)
          ∧ ∀ k, 1 ≤ k → k < s.msgLen.toNat → memGet u.payload k = memGet s.payload k

/-! ## The whole machine -/

/-- 60_exceptions R132, R145: a command that ends leaves BUSY = 0 and a code of its own: DELIVERED or a discard for DECODE,
ENCODED or ERR_ENC_LEN for ENCODE, DPT_OK or ERR_DPT_LEN for a DPT command. No command is ever refused. -/
def Obligations.EveryCommandEndsInOneOutcome : Prop :=
  ∀ (i : Instr) (s : State),
    (∀ r, exec i s ≠ .refused r) ∧ exec i s ≠ .fault .hazardBusy
    ∧ ∀ t, exec i s = .next t → t.busy = false
      ∧ (i = .decode → t.result = .delivered ∨ classOfBits (classBits t.result.code) = some .discard)
      ∧ (i = .encode → t.result = .encoded ∨ t.result = .errEncLen)
      ∧ (dptNeed i ≠ none → t.result = .dptOk ∨ t.result = .errDptLen)

/-- The stores keep their canonical form (the model's, log entry 6), the build stays legal (log entry 15), and RESULT = NONE
while BUSY = 1 (10_state R17). -/
def Obligations.StepKeepsTheInvariant : Prop :=
  ∀ s t : State, s.inv → step s = .next t → t.inv

/-- 10_state R22, R23: from every state where TXBUF holds a whole datagram of TXLEN bytes or TXLEN = 0, so it does after every
step. -/
def Obligations.StepKeepsTheTransmitFrame : Prop :=
  ∀ s t : State, s.txFrame → step s = .next t → t.txFrame

/-- 10_state R30: each accepting DECODE adds one to DELIVER_CNT, modulo 2^16, with exactly one Deliver event; nothing else
writes it but reset. -/
def Obligations.DeliverCountCountsDeliveries : Prop :=
  State.reset.deliverCnt = 0x0000
  ∧ (∀ s t : State, exec .decode s = .next t →
      t.deliverCnt.toNat = if t.result = .delivered then (s.deliverCnt.toNat + 1) % 2 ^ 16 else s.deliverCnt.toNat)
  ∧ ∀ s t : State, step s = .next t →
    (t.deliverCnt = s.deliverCnt ∧ (t.trace = s.trace ∨ ∃ a v, t.trace = .read a v :: s.trace))
    ∨ (s.pending = some 0x01 ∧ t.result = .delivered ∧ t.deliverCnt.toNat = (s.deliverCnt.toNat + 1) % 2 ^ 16
        ∧ ∃ m, t.trace = .deliver m :: s.trace)
    ∨ ((∃ rest, s.agenda = .reset :: rest) ∧ t.deliverCnt = 0 ∧ t.trace = s.trace)

/-- 00_scope R5: "No parameter changes at run time", so no CFG byte does. -/
def Obligations.NoStepChangesTheBuild : Prop :=
  ∀ s t : State, step s = .next t → t.params = s.params ∧ ∀ k, readPlace t (.cfg k) = readPlace s (.cfg k)

/-- 10_state R23, R31: only an ENCODE that ends with ENCODED writes TXBUF, only a DPT command that ends with DPT_OK writes
DPT_RESULT, and reset clears both. -/
def Obligations.OnlyTheirCommandsWriteResults : Prop :=
  ∀ s t : State, step s = .next t → (∀ rest, s.agenda ≠ .reset :: rest) →
    (t.tx = s.tx ∨ (s.pending = some 0x02 ∧ t.result = .encoded))
    ∧ (t.dptResult = s.dptResult ∨
        (∃ c i, s.pending = some c ∧ decode c = .ok i ∧ dptNeed i ≠ none ∧ t.result = .dptOk))

/-- 30_encoding R91, 70_reset_and_hazards R156: a host whose remaining accesses put a WAIT after every CMD write never meets
Fault(HAZARD_BUSY), whatever turns the engine and the reset input take among them (the agenda is the model's, log entry 2;
that a program's last CMD write needs its WAIT too, log entry 16). -/
def Obligations.CarefulHostNeverMeetsTheHazard : Prop :=
  (∀ p : List Access, programOk p = true → turnsOk false (p.map .host) = true)
  ∧ ∀ s : State, s.hostCareful → step s ≠ .fault .hazardBusy ∧ ∀ t, step s = .next t → t.hostCareful

/-- 70_reset_and_hazards R164: a state is final exactly when no host access is left and STATUS.BUSY (bit 7) = 0, whatever
turns the engine and the reset input have left; such a state steps to final states alone, and only reset changes its contents.
R162, 60_exceptions R132: from every state, with a finite agenda, a run reaches a final state with every turn taken, or a fault,
within two steps a turn and one more; no step is refused. The agenda is the model's choice (log entries 2, 3, 4, 11). -/
def Obligations.EveryRunEndsFinalOrFaulted : Prop :=
  (∀ s : State, s.isFinal ↔ (∀ a, Turn.host a ∉ s.agenda) ∧ s.status.toNat < 128)
  ∧ (∀ s : State, s.isFinal → ∃ t, step s = .next t ∧ t.isFinal
      ∧ ((∀ rest, s.agenda ≠ .reset :: rest) → t = { s with agenda := s.agenda.tail }))
  ∧ ∀ s : State,
    (∃ t, core.run (2 * s.agenda.length + 1) s = .next t ∧ t.isFinal ∧ t.agenda = [])
    ∨ ∃ f, core.run (2 * s.agenda.length + 1) s = .fault f
end

