-- ==== Sys2Proof/Laws/Memory.lean ====
section
/-! SUPPORT. Byte stores: a read after a write, and that every write keeps the canonical form. -/

namespace Sys2Proof.Machine

/-! ## Reads after writes -/

theorem memGet_memPut (m : Memory) (k j : Nat) (v : Byte) :
    memGet (memPut m k v) j = if k = j then some v else memGet m j := by
  induction m with
  | nil => simp [memPut, memGet]
  | cons c m ih =>
    obtain ⟨a, b⟩ := c
    simp only [memPut]
    split
    · simp [memGet]
    · split
      · subst_vars
        by_cases h : a = j <;> simp [memGet, h]
      · by_cases h : a = j
        · subst h
          have : ¬ k = a := by assumption
          simp [memGet, this]
        · simp [memGet, h, ih]

@[simp] theorem memGet_memPut_same (m : Memory) (k : Nat) (v : Byte) : memGet (memPut m k v) k = some v := by
  simp [memGet_memPut]

theorem memGet_memPut_other (m : Memory) {k j : Nat} (v : Byte) (h : k ≠ j) :
    memGet (memPut m k v) j = memGet m j := by
  simp [memGet_memPut, h]

/-- The same byte written twice is written once, as data. -/
@[simp] theorem memPut_memPut_same (m : Memory) (k : Nat) (v : Byte) : memPut (memPut m k v) k v = memPut m k v := by
  induction m with
  | nil => simp [memPut]
  | cons c m ih =>
    obtain ⟨a, b⟩ := c
    by_cases h1 : k < a
    · simp [memPut, h1]
    · by_cases h2 : k = a <;> simp [memPut, h1, h2, ih]

/-- What a run of bytes written from `off` up leaves at every offset. -/
theorem memGet_memPutAll (bytes : List Byte) (m : Memory) (off j : Nat) :
    memGet (memPutAll m off bytes) j =
      if off ≤ j ∧ j < off + bytes.length then bytes[j - off]? else memGet m j := by
  induction bytes generalizing m off with
  | nil =>
    have : ¬ (off ≤ j ∧ j < off + ([] : List Byte).length) := by simp
    simp only [memPutAll, this, if_false]
  | cons b bs ih =>
    simp only [memPutAll, ih, memGet_memPut, List.length_cons]
    by_cases h : off = j
    · subst h
      have h1 : ¬ (off + 1 ≤ off ∧ off < off + 1 + bs.length) := by omega
      have h2 : off ≤ off ∧ off < off + (bs.length + 1) := by omega
      rw [if_neg h1, if_pos h2]
      simp
    · by_cases h2 : off + 1 ≤ j ∧ j < off + 1 + bs.length
      · have h3 : off ≤ j ∧ j < off + (bs.length + 1) := by omega
        rw [if_pos h2, if_pos h3]
        have h4 : j - off = (j - (off + 1)) + 1 := by omega
        simp [h4]
      · have h3 : ¬ (off ≤ j ∧ j < off + (bs.length + 1)) := by omega
        rw [if_neg h2, if_neg h3, if_neg h]

/-! ## The canonical form -/

theorem risingFrom_mono {lo lo' size : Nat} {m : Memory} (h : risingFrom lo size m) (hl : lo' ≤ lo) :
    risingFrom lo' size m := by
  cases m with
  | nil => rfl
  | cons c m =>
    simp only [risingFrom, Bool.and_eq_true, decide_eq_true_eq] at h ⊢
    exact ⟨⟨hl.trans h.1.1, h.1.2⟩, h.2⟩

theorem risingFrom_memPut {lo size k : Nat} {m : Memory} (v : Byte) (h : risingFrom lo size m) (hl : lo ≤ k)
    (hk : k < size) : risingFrom lo size (memPut m k v) := by
  induction m generalizing lo with
  | nil => simp [memPut, risingFrom, hl, hk]
  | cons c m ih =>
    obtain ⟨a, b⟩ := c
    simp only [risingFrom, Bool.and_eq_true, decide_eq_true_eq] at h
    simp only [memPut]
    split
    · simp only [risingFrom, Bool.and_eq_true, decide_eq_true_eq]
      exact ⟨⟨hl, hk⟩, ⟨by omega, h.1.2⟩, h.2⟩
    · split
      · subst_vars
        simp only [risingFrom, Bool.and_eq_true, decide_eq_true_eq]
        exact ⟨⟨hl, hk⟩, h.2⟩
      · simp only [risingFrom, Bool.and_eq_true, decide_eq_true_eq]
        exact ⟨h.1, ih h.2 (by omega)⟩

theorem memPut_wf {size k : Nat} {m : Memory} (v : Byte) (h : Memory.wf size m) (hk : k < size) :
    Memory.wf size (memPut m k v) :=
  risingFrom_memPut v h (Nat.zero_le k) hk

theorem memPutAll_wf {size : Nat} (bytes : List Byte) {m : Memory} {off : Nat} (h : Memory.wf size m)
    (hk : off + bytes.length ≤ size) : Memory.wf size (memPutAll m off bytes) := by
  induction bytes generalizing m off with
  | nil => exact h
  | cons b bs ih =>
    simp only [List.length_cons] at hk
    exact ih (memPut_wf b h (by omega)) (by omega)

theorem memGet_of_lt {lo size k : Nat} {m : Memory} (h : risingFrom lo size m) (hk : k < lo) : memGet m k = none := by
  induction m generalizing lo with
  | nil => rfl
  | cons c m ih =>
    obtain ⟨a, b⟩ := c
    simp only [risingFrom, Bool.and_eq_true, decide_eq_true_eq] at h
    have : ¬ a = k := by omega
    simp [memGet, this, ih h.2 (by omega)]

/-- An offset outside a store is never listed in it. -/
theorem memGet_of_ge {lo size k : Nat} {m : Memory} (h : risingFrom lo size m) (hk : size ≤ k) : memGet m k = none := by
  induction m generalizing lo with
  | nil => rfl
  | cons c m ih =>
    obtain ⟨a, b⟩ := c
    simp only [risingFrom, Bool.and_eq_true, decide_eq_true_eq] at h
    have : ¬ a = k := by omega
    simp [memGet, this, ih h.2]

/-- Two stores in canonical form that read alike at every offset are equal lists. -/
theorem memory_ext {lo size : Nat} {m m' : Memory} (h : risingFrom lo size m) (h' : risingFrom lo size m')
    (e : ∀ k, memGet m k = memGet m' k) : m = m' := by
  induction m generalizing lo m' with
  | nil =>
    cases m' with
    | nil => rfl
    | cons c' m' => have := e c'.1; simp [memGet] at this
  | cons c m ih =>
    obtain ⟨a, b⟩ := c
    cases m' with
    | nil => have := e a; simp [memGet] at this
    | cons c' m' =>
      obtain ⟨a', b'⟩ := c'
      simp only [risingFrom, Bool.and_eq_true, decide_eq_true_eq] at h h'
      have hab : a = a' := by
        rcases Nat.lt_trichotomy a a' with hlt | heq | hgt
        · have := e a
          simp [memGet, show ¬ a' = a by omega, memGet_of_lt h'.2 (show a < a' + 1 by omega)] at this
        · exact heq
        · have := e a'
          simp [memGet, show ¬ a = a' by omega, memGet_of_lt h.2 (show a' < a + 1 by omega)] at this
      subst hab
      have hb : b = b' := by have := e a; simpa [memGet] using this
      subst hb
      congr 1
      refine ih h.2 h'.2 fun k => ?_
      by_cases hk : a = k
      · subst hk
        rw [memGet_of_lt h.2 (Nat.lt_succ_self a), memGet_of_lt h'.2 (Nat.lt_succ_self a)]
      · have := e k
        simpa [memGet, hk] using this

end Sys2Proof.Machine
end

