-- ==== Sys2Proof/Laws/Operands.lean ====
section
/-! SUPPORT. Reads of a store, the checks of a command, and big-endian values. -/

namespace Sys2Proof.Machine

/-! ## Computations that may stop -/

/-- A computation that goes on answers a value exactly when its first part does and the rest does. -/
theorem bind_ok {ε α β : Type} {x : Except ε α} {f : α → Except ε β} {b : β} :
    (x >>= f) = .ok b ↔ ∃ a, x = .ok a ∧ f a = .ok b := by
  cases x <;> simp [bind, Except.bind]

/-- It stops exactly where its first part stops, or where the rest does. -/
theorem bind_error {ε α β : Type} {x : Except ε α} {f : α → Except ε β} {e : ε} :
    (x >>= f) = .error e ↔ x = .error e ∨ ∃ a, x = .ok a ∧ f a = .error e := by
  cases x <;> simp [bind, Except.bind]

theorem discardIf_ok {bad : Bool} {r : ResultCode} {u : Unit} : discardIf bad r = .ok u ↔ bad = false := by
  cases bad <;> simp [discardIf]

theorem discardIf_error {bad : Bool} {r : ResultCode} {e : Stop} :
    discardIf bad r = .error e ↔ bad = true ∧ e = .discard r := by
  cases bad <;> simp [discardIf, eq_comm]

/-! ## Byte reads -/

theorem readByte_ok {s : State} {st : Store} {k : Nat} {b : Byte} :
    readByte s st k = .ok b ↔ memGet (s.store st) k = some b := by
  unfold readByte
  split <;> simp_all

theorem readByte_error {s : State} {st : Store} {k : Nat} {f : Fault} :
    readByte s st k = .error f ↔ memGet (s.store st) k = none ∧ f = .uninit st k := by
  unfold readByte
  cases h : memGet (s.store st) k <;> simp [eq_comm]

theorem rxByte_ok {s : State} {k : Nat} {b : Byte} : rxByte s k = .ok b ↔ memGet s.rx k = some b := by
  unfold rxByte readByte
  cases h : memGet s.rx k <;> simp [State.store, h, Except.mapError]

theorem rxByte_error {s : State} {k : Nat} {e : Stop} :
    rxByte s k = .error e ↔ memGet s.rx k = none ∧ e = .fault (.uninit .rx k) := by
  unfold rxByte readByte
  cases h : memGet s.rx k <;> simp [State.store, h, Except.mapError, eq_comm]

/-- A read of `n` bytes answers exactly the bytes written there, all of them. -/
theorem readBytes_ok {s : State} {st : Store} {off n : Nat} {bs : List Byte} :
    readBytes s st off n = .ok bs ↔ bs.length = n ∧ ∀ k < n, memGet (s.store st) (off + k) = bs[k]? := by
  induction n generalizing off bs with
  | zero =>
    cases bs <;> simp [readBytes]
  | succ n ih =>
    simp only [readBytes, bind_ok, readByte_ok, pure, Except.pure, Except.ok.injEq]
    constructor
    · rintro ⟨b, hb, rest, hr, rfl⟩
      obtain ⟨hl, hk⟩ := ih.mp hr
      refine ⟨by simp [hl], fun k hkn => ?_⟩
      cases k with
      | zero => simpa using hb
      | succ k => simpa [Nat.add_assoc, Nat.add_comm 1 k] using hk k (by omega)
    · rintro ⟨hl, hk⟩
      cases bs with
      | nil => simp at hl
      | cons b rest =>
        refine ⟨b, by simpa using hk 0 (by omega), rest, ih.mpr ⟨by simpa using hl, fun k hkn => ?_⟩, rfl⟩
        simpa [Nat.add_assoc, Nat.add_comm 1 k] using hk (k + 1) (by omega)

/-- A read of `n` bytes stops only at an unwritten one of them, the first. -/
theorem readBytes_error {s : State} {st : Store} {off n : Nat} {f : Fault} (h : readBytes s st off n = .error f) :
    ∃ k < n, memGet (s.store st) (off + k) = none ∧ f = .uninit st (off + k) := by
  induction n generalizing off with
  | zero => simp [readBytes] at h
  | succ n ih =>
    simp only [readBytes, bind_error, readByte_error, readByte_ok, pure, Except.pure] at h
    rcases h with ⟨h1, rfl⟩ | ⟨b, hb, h2 | ⟨r, hr, h3⟩⟩
    · exact ⟨0, by omega, by simpa using h1, by simp⟩
    · obtain ⟨k, hk, h4, rfl⟩ := ih h2
      exact ⟨k + 1, by omega, by simpa [Nat.add_assoc, Nat.add_comm 1 k] using h4,
        by simp [Nat.add_assoc, Nat.add_comm 1 k]⟩
    · simp at h3

theorem rxBytes_ok {s : State} {off n : Nat} {bs : List Byte} :
    rxBytes s off n = .ok bs ↔ bs.length = n ∧ ∀ k < n, memGet s.rx (off + k) = bs[k]? := by
  refine Iff.trans ?_ (readBytes_ok (st := .rx))
  unfold rxBytes
  cases readBytes s .rx off n <;> simp [Except.mapError]

theorem rxBytes_error {s : State} {off n : Nat} {e : Stop} (h : rxBytes s off n = .error e) :
    ∃ k < n, memGet s.rx (off + k) = none ∧ e = .fault (.uninit .rx (off + k)) := by
  unfold rxBytes at h
  cases h' : readBytes s .rx off n with
  | ok b' => simp [h', Except.mapError] at h
  | error f =>
    obtain ⟨k, hk, h1, rfl⟩ := readBytes_error h'
    simp only [h', Except.mapError, Except.error.injEq] at h
    exact ⟨k, hk, h1, h.symm⟩

/-- `n` bytes all written can be read. -/
theorem readBytes_of_written {s : State} {st : Store} {off n : Nat}
    (h : ∀ k < n, (memGet (s.store st) (off + k)).isSome) : ∃ bs, readBytes s st off n = .ok bs := by
  cases hr : readBytes s st off n with
  | ok bs => exact ⟨bs, rfl⟩
  | error f =>
    obtain ⟨k, hk, h1, -⟩ := readBytes_error hr
    simpa [h1] using h k hk

/-! ## Big-endian values -/

/-- A concatenation as a number. -/
theorem append_toNat {a b : Nat} (x : BitVec a) (y : BitVec b) : (x ++ y).toNat = x.toNat * 2 ^ b + y.toNat := by
  rw [BitVec.toNat_append, Nat.shiftLeft_eq, Nat.mul_comm, ← Nat.two_pow_add_eq_or_of_lt y.isLt]

/-- A field as a number. -/
theorem extract_toNat {w : Nat} (v : BitVec w) (lo n : Nat) : (v.extractLsb' lo n).toNat = v.toNat / 2 ^ lo % 2 ^ n := by
  simp [BitVec.extractLsb'_toNat, Nat.shiftRight_eq_div_pow]

theorem be16_toNat (b0 b1 : Byte) : (be16 b0 b1).toNat = b0.toNat * 2 ^ 8 + b1.toNat := by
  have h0 := b0.isLt
  have h1 := b1.isLt
  simp only [be16, BitVec.toNat_append, Nat.shiftLeft_eq]
  rw [Nat.mul_comm, ← Nat.two_pow_add_eq_or_of_lt h1, Nat.mul_comm]

theorem be32_toNat (b0 b1 b2 b3 : Byte) :
    (be32 b0 b1 b2 b3).toNat = b0.toNat * 2 ^ 24 + b1.toNat * 2 ^ 16 + b2.toNat * 2 ^ 8 + b3.toNat := by
  have h1 := b1.isLt
  have h2 := b2.isLt
  have h3 := b3.isLt
  simp only [be32, BitVec.toNat_append, Nat.shiftLeft_eq]
  have e1 : b0.toNat * 2 ^ 8 ||| b1.toNat = b0.toNat * 2 ^ 8 + b1.toNat := by
    rw [Nat.mul_comm, ← Nat.two_pow_add_eq_or_of_lt h1]
  rw [e1]
  have e2 : (b0.toNat * 2 ^ 8 + b1.toNat) * 2 ^ 8 ||| b2.toNat = (b0.toNat * 2 ^ 8 + b1.toNat) * 2 ^ 8 + b2.toNat := by
    rw [Nat.mul_comm, ← Nat.two_pow_add_eq_or_of_lt h2]
  rw [e2]
  have e3 : ((b0.toNat * 2 ^ 8 + b1.toNat) * 2 ^ 8 + b2.toNat) * 2 ^ 8 ||| b3.toNat
      = ((b0.toNat * 2 ^ 8 + b1.toNat) * 2 ^ 8 + b2.toNat) * 2 ^ 8 + b3.toNat := by
    rw [Nat.mul_comm, ← Nat.two_pow_add_eq_or_of_lt h3]
  rw [e3]
  omega

theorem hi8_toNat (v : BitVec 16) : (hi8 v).toNat = v.toNat / 2 ^ 8 := by
  have := v.isLt
  simp only [hi8, BitVec.extractLsb'_toNat, Nat.shiftRight_eq_div_pow]
  omega

theorem lo8_toNat (v : BitVec 16) : (lo8 v).toNat = v.toNat % 2 ^ 8 := by
  simp [lo8, BitVec.extractLsb'_toNat]

/-- The two bytes of a 16-bit value put together again. -/
@[simp] theorem be16_hi8_lo8 (v : BitVec 16) : be16 (hi8 v) (lo8 v) = v := by
  apply BitVec.eq_of_toNat_eq
  rw [be16_toNat, hi8_toNat, lo8_toNat]
  omega

@[simp] theorem hi8_be16 (b0 b1 : Byte) : hi8 (be16 b0 b1) = b0 := by
  apply BitVec.eq_of_toNat_eq
  have := b1.isLt
  rw [hi8_toNat, be16_toNat]
  omega

@[simp] theorem lo8_be16 (b0 b1 : Byte) : lo8 (be16 b0 b1) = b1 := by
  apply BitVec.eq_of_toNat_eq
  have := b1.isLt
  rw [lo8_toNat, be16_toNat]
  omega

/-- The command type split and put together again (30_encoding R81). -/
theorem commandType_split (t : BitVec 6) (ct : BitVec 4) (p0 : Byte) :
    commandType (pciOf t ct) (data0Of ct p0) = ct := by
  apply BitVec.eq_of_getLsbD_eq
  intro i hi
  simp only [commandType, apciHigh, field, pciOf, data0Of, BitVec.getLsbD_append, BitVec.getLsbD_extractLsb',
    BitVec.getLsbD_or, BitVec.getLsbD_and]
  rcases (show i = 0 ∨ i = 1 ∨ i = 2 ∨ i = 3 by omega) with rfl | rfl | rfl | rfl <;> simp

end Sys2Proof.Machine
end

