-- ==== Sys2Proof/Laws/State.lean ====
section
/-! SUPPORT. What each named update of the state does to each field: one lemma per field per update, true by rfl. -/

namespace Sys2Proof.Machine

/-! ## complete -/

@[simp] theorem complete_cmd (r : ResultCode) (s : State) : (complete r s).cmd = s.cmd := rfl
@[simp] theorem complete_result (r : ResultCode) (s : State) : (complete r s).result = r := rfl
@[simp] theorem complete_pending (r : ResultCode) (s : State) : (complete r s).pending = none := rfl
@[simp] theorem complete_rxlen (r : ResultCode) (s : State) : (complete r s).rxlen = s.rxlen := rfl
@[simp] theorem complete_rx (r : ResultCode) (s : State) : (complete r s).rx = s.rx := rfl
@[simp] theorem complete_txlen (r : ResultCode) (s : State) : (complete r s).txlen = s.txlen := rfl
@[simp] theorem complete_tx (r : ResultCode) (s : State) : (complete r s).tx = s.tx := rfl
@[simp] theorem complete_msgCt (r : ResultCode) (s : State) : (complete r s).msgCt = s.msgCt := rfl
@[simp] theorem complete_msgSrc (r : ResultCode) (s : State) : (complete r s).msgSrc = s.msgSrc := rfl
@[simp] theorem complete_msgDst (r : ResultCode) (s : State) : (complete r s).msgDst = s.msgDst := rfl
@[simp] theorem complete_msgLen (r : ResultCode) (s : State) : (complete r s).msgLen = s.msgLen := rfl
@[simp] theorem complete_payload (r : ResultCode) (s : State) : (complete r s).payload = s.payload := rfl
@[simp] theorem complete_deliverCnt (r : ResultCode) (s : State) : (complete r s).deliverCnt = s.deliverCnt := rfl
@[simp] theorem complete_dptResult (r : ResultCode) (s : State) : (complete r s).dptResult = s.dptResult := rfl
@[simp] theorem complete_params (r : ResultCode) (s : State) : (complete r s).params = s.params := rfl
@[simp] theorem complete_agenda (r : ResultCode) (s : State) : (complete r s).agenda = s.agenda := rfl
@[simp] theorem complete_trace (r : ResultCode) (s : State) : (complete r s).trace = s.trace := rfl
@[simp] theorem complete_draws (r : ResultCode) (s : State) : (complete r s).draws = s.draws := rfl

/-! ## latchCommand -/

@[simp] theorem latchCommand_cmd (v : Byte) (s : State) : (latchCommand v s).cmd = v := rfl
@[simp] theorem latchCommand_result (v : Byte) (s : State) : (latchCommand v s).result = .none := rfl
@[simp] theorem latchCommand_pending (v : Byte) (s : State) : (latchCommand v s).pending = some v := rfl
@[simp] theorem latchCommand_rxlen (v : Byte) (s : State) : (latchCommand v s).rxlen = s.rxlen := rfl
@[simp] theorem latchCommand_rx (v : Byte) (s : State) : (latchCommand v s).rx = s.rx := rfl
@[simp] theorem latchCommand_txlen (v : Byte) (s : State) : (latchCommand v s).txlen = s.txlen := rfl
@[simp] theorem latchCommand_tx (v : Byte) (s : State) : (latchCommand v s).tx = s.tx := rfl
@[simp] theorem latchCommand_msgCt (v : Byte) (s : State) : (latchCommand v s).msgCt = s.msgCt := rfl
@[simp] theorem latchCommand_msgSrc (v : Byte) (s : State) : (latchCommand v s).msgSrc = s.msgSrc := rfl
@[simp] theorem latchCommand_msgDst (v : Byte) (s : State) : (latchCommand v s).msgDst = s.msgDst := rfl
@[simp] theorem latchCommand_msgLen (v : Byte) (s : State) : (latchCommand v s).msgLen = s.msgLen := rfl
@[simp] theorem latchCommand_payload (v : Byte) (s : State) : (latchCommand v s).payload = s.payload := rfl
@[simp] theorem latchCommand_deliverCnt (v : Byte) (s : State) : (latchCommand v s).deliverCnt = s.deliverCnt := rfl
@[simp] theorem latchCommand_dptResult (v : Byte) (s : State) : (latchCommand v s).dptResult = s.dptResult := rfl
@[simp] theorem latchCommand_params (v : Byte) (s : State) : (latchCommand v s).params = s.params := rfl
@[simp] theorem latchCommand_agenda (v : Byte) (s : State) : (latchCommand v s).agenda = s.agenda := rfl
@[simp] theorem latchCommand_trace (v : Byte) (s : State) : (latchCommand v s).trace = s.trace := rfl
@[simp] theorem latchCommand_draws (v : Byte) (s : State) : (latchCommand v s).draws = s.draws := rfl

/-! ## commitMessage -/

@[simp] theorem commitMessage_cmd (m : Message) (s : State) : (commitMessage m s).cmd = s.cmd := rfl
@[simp] theorem commitMessage_result (m : Message) (s : State) : (commitMessage m s).result = s.result := rfl
@[simp] theorem commitMessage_pending (m : Message) (s : State) : (commitMessage m s).pending = s.pending := rfl
@[simp] theorem commitMessage_rxlen (m : Message) (s : State) : (commitMessage m s).rxlen = s.rxlen := rfl
@[simp] theorem commitMessage_rx (m : Message) (s : State) : (commitMessage m s).rx = s.rx := rfl
@[simp] theorem commitMessage_txlen (m : Message) (s : State) : (commitMessage m s).txlen = s.txlen := rfl
@[simp] theorem commitMessage_tx (m : Message) (s : State) : (commitMessage m s).tx = s.tx := rfl
@[simp] theorem commitMessage_msgCt (m : Message) (s : State) : (commitMessage m s).msgCt = m.ct := rfl
@[simp] theorem commitMessage_msgSrc (m : Message) (s : State) : (commitMessage m s).msgSrc = m.src := rfl
@[simp] theorem commitMessage_msgDst (m : Message) (s : State) : (commitMessage m s).msgDst = m.dst := rfl
@[simp] theorem commitMessage_msgLen (m : Message) (s : State) : (commitMessage m s).msgLen = m.len := rfl
@[simp] theorem commitMessage_payload (m : Message) (s : State) : (commitMessage m s).payload = memPutAll s.payload 0 m.bytes := rfl
@[simp] theorem commitMessage_deliverCnt (m : Message) (s : State) : (commitMessage m s).deliverCnt = s.deliverCnt := rfl
@[simp] theorem commitMessage_dptResult (m : Message) (s : State) : (commitMessage m s).dptResult = s.dptResult := rfl
@[simp] theorem commitMessage_params (m : Message) (s : State) : (commitMessage m s).params = s.params := rfl
@[simp] theorem commitMessage_agenda (m : Message) (s : State) : (commitMessage m s).agenda = s.agenda := rfl
@[simp] theorem commitMessage_trace (m : Message) (s : State) : (commitMessage m s).trace = s.trace := rfl
@[simp] theorem commitMessage_draws (m : Message) (s : State) : (commitMessage m s).draws = s.draws := rfl

/-! ## emit -/

@[simp] theorem emit_cmd (e : Event) (s : State) : (emit e s).cmd = s.cmd := rfl
@[simp] theorem emit_result (e : Event) (s : State) : (emit e s).result = s.result := rfl
@[simp] theorem emit_pending (e : Event) (s : State) : (emit e s).pending = s.pending := rfl
@[simp] theorem emit_rxlen (e : Event) (s : State) : (emit e s).rxlen = s.rxlen := rfl
@[simp] theorem emit_rx (e : Event) (s : State) : (emit e s).rx = s.rx := rfl
@[simp] theorem emit_txlen (e : Event) (s : State) : (emit e s).txlen = s.txlen := rfl
@[simp] theorem emit_tx (e : Event) (s : State) : (emit e s).tx = s.tx := rfl
@[simp] theorem emit_msgCt (e : Event) (s : State) : (emit e s).msgCt = s.msgCt := rfl
@[simp] theorem emit_msgSrc (e : Event) (s : State) : (emit e s).msgSrc = s.msgSrc := rfl
@[simp] theorem emit_msgDst (e : Event) (s : State) : (emit e s).msgDst = s.msgDst := rfl
@[simp] theorem emit_msgLen (e : Event) (s : State) : (emit e s).msgLen = s.msgLen := rfl
@[simp] theorem emit_payload (e : Event) (s : State) : (emit e s).payload = s.payload := rfl
@[simp] theorem emit_deliverCnt (e : Event) (s : State) : (emit e s).deliverCnt = s.deliverCnt := rfl
@[simp] theorem emit_dptResult (e : Event) (s : State) : (emit e s).dptResult = s.dptResult := rfl
@[simp] theorem emit_params (e : Event) (s : State) : (emit e s).params = s.params := rfl
@[simp] theorem emit_agenda (e : Event) (s : State) : (emit e s).agenda = s.agenda := rfl
@[simp] theorem emit_trace (e : Event) (s : State) : (emit e s).trace = e :: s.trace := rfl
@[simp] theorem emit_draws (e : Event) (s : State) : (emit e s).draws = s.draws := rfl

/-! ## deliver -/

@[simp] theorem deliver_cmd (m : Message) (s : State) : (deliver m s).cmd = s.cmd := rfl
@[simp] theorem deliver_result (m : Message) (s : State) : (deliver m s).result = s.result := rfl
@[simp] theorem deliver_pending (m : Message) (s : State) : (deliver m s).pending = s.pending := rfl
@[simp] theorem deliver_rxlen (m : Message) (s : State) : (deliver m s).rxlen = s.rxlen := rfl
@[simp] theorem deliver_rx (m : Message) (s : State) : (deliver m s).rx = s.rx := rfl
@[simp] theorem deliver_txlen (m : Message) (s : State) : (deliver m s).txlen = s.txlen := rfl
@[simp] theorem deliver_tx (m : Message) (s : State) : (deliver m s).tx = s.tx := rfl
@[simp] theorem deliver_msgCt (m : Message) (s : State) : (deliver m s).msgCt = s.msgCt := rfl
@[simp] theorem deliver_msgSrc (m : Message) (s : State) : (deliver m s).msgSrc = s.msgSrc := rfl
@[simp] theorem deliver_msgDst (m : Message) (s : State) : (deliver m s).msgDst = s.msgDst := rfl
@[simp] theorem deliver_msgLen (m : Message) (s : State) : (deliver m s).msgLen = s.msgLen := rfl
@[simp] theorem deliver_payload (m : Message) (s : State) : (deliver m s).payload = s.payload := rfl
@[simp] theorem deliver_deliverCnt (m : Message) (s : State) : (deliver m s).deliverCnt = s.deliverCnt + 1 := rfl
@[simp] theorem deliver_dptResult (m : Message) (s : State) : (deliver m s).dptResult = s.dptResult := rfl
@[simp] theorem deliver_params (m : Message) (s : State) : (deliver m s).params = s.params := rfl
@[simp] theorem deliver_agenda (m : Message) (s : State) : (deliver m s).agenda = s.agenda := rfl
@[simp] theorem deliver_trace (m : Message) (s : State) : (deliver m s).trace = .deliver m :: s.trace := rfl
@[simp] theorem deliver_draws (m : Message) (s : State) : (deliver m s).draws = s.draws := rfl

/-! ## setDptResult -/

@[simp] theorem setDptResult_cmd (v : BitVec 32) (s : State) : (setDptResult v s).cmd = s.cmd := rfl
@[simp] theorem setDptResult_result (v : BitVec 32) (s : State) : (setDptResult v s).result = s.result := rfl
@[simp] theorem setDptResult_pending (v : BitVec 32) (s : State) : (setDptResult v s).pending = s.pending := rfl
@[simp] theorem setDptResult_rxlen (v : BitVec 32) (s : State) : (setDptResult v s).rxlen = s.rxlen := rfl
@[simp] theorem setDptResult_rx (v : BitVec 32) (s : State) : (setDptResult v s).rx = s.rx := rfl
@[simp] theorem setDptResult_txlen (v : BitVec 32) (s : State) : (setDptResult v s).txlen = s.txlen := rfl
@[simp] theorem setDptResult_tx (v : BitVec 32) (s : State) : (setDptResult v s).tx = s.tx := rfl
@[simp] theorem setDptResult_msgCt (v : BitVec 32) (s : State) : (setDptResult v s).msgCt = s.msgCt := rfl
@[simp] theorem setDptResult_msgSrc (v : BitVec 32) (s : State) : (setDptResult v s).msgSrc = s.msgSrc := rfl
@[simp] theorem setDptResult_msgDst (v : BitVec 32) (s : State) : (setDptResult v s).msgDst = s.msgDst := rfl
@[simp] theorem setDptResult_msgLen (v : BitVec 32) (s : State) : (setDptResult v s).msgLen = s.msgLen := rfl
@[simp] theorem setDptResult_payload (v : BitVec 32) (s : State) : (setDptResult v s).payload = s.payload := rfl
@[simp] theorem setDptResult_deliverCnt (v : BitVec 32) (s : State) : (setDptResult v s).deliverCnt = s.deliverCnt := rfl
@[simp] theorem setDptResult_dptResult (v : BitVec 32) (s : State) : (setDptResult v s).dptResult = v := rfl
@[simp] theorem setDptResult_params (v : BitVec 32) (s : State) : (setDptResult v s).params = s.params := rfl
@[simp] theorem setDptResult_agenda (v : BitVec 32) (s : State) : (setDptResult v s).agenda = s.agenda := rfl
@[simp] theorem setDptResult_trace (v : BitVec 32) (s : State) : (setDptResult v s).trace = s.trace := rfl
@[simp] theorem setDptResult_draws (v : BitVec 32) (s : State) : (setDptResult v s).draws = s.draws := rfl

/-! ## commitFloat16 -/

@[simp] theorem commitFloat16_cmd (v : BitVec 32) (s : State) : (commitFloat16 v s).cmd = s.cmd := rfl
@[simp] theorem commitFloat16_result (v : BitVec 32) (s : State) : (commitFloat16 v s).result = s.result := rfl
@[simp] theorem commitFloat16_pending (v : BitVec 32) (s : State) : (commitFloat16 v s).pending = s.pending := rfl
@[simp] theorem commitFloat16_rxlen (v : BitVec 32) (s : State) : (commitFloat16 v s).rxlen = s.rxlen := rfl
@[simp] theorem commitFloat16_rx (v : BitVec 32) (s : State) : (commitFloat16 v s).rx = s.rx := rfl
@[simp] theorem commitFloat16_txlen (v : BitVec 32) (s : State) : (commitFloat16 v s).txlen = s.txlen := rfl
@[simp] theorem commitFloat16_tx (v : BitVec 32) (s : State) : (commitFloat16 v s).tx = s.tx := rfl
@[simp] theorem commitFloat16_msgCt (v : BitVec 32) (s : State) : (commitFloat16 v s).msgCt = s.msgCt := rfl
@[simp] theorem commitFloat16_msgSrc (v : BitVec 32) (s : State) : (commitFloat16 v s).msgSrc = s.msgSrc := rfl
@[simp] theorem commitFloat16_msgDst (v : BitVec 32) (s : State) : (commitFloat16 v s).msgDst = s.msgDst := rfl
@[simp] theorem commitFloat16_msgLen (v : BitVec 32) (s : State) : (commitFloat16 v s).msgLen = s.msgLen := rfl
@[simp] theorem commitFloat16_payload (v : BitVec 32) (s : State) : (commitFloat16 v s).payload = s.payload := rfl
@[simp] theorem commitFloat16_deliverCnt (v : BitVec 32) (s : State) : (commitFloat16 v s).deliverCnt = s.deliverCnt := rfl
@[simp] theorem commitFloat16_dptResult (v : BitVec 32) (s : State) : (commitFloat16 v s).dptResult = v := rfl
@[simp] theorem commitFloat16_params (v : BitVec 32) (s : State) : (commitFloat16 v s).params = s.params := rfl
@[simp] theorem commitFloat16_agenda (v : BitVec 32) (s : State) : (commitFloat16 v s).agenda = s.agenda := rfl
@[simp] theorem commitFloat16_trace (v : BitVec 32) (s : State) : (commitFloat16 v s).trace = s.trace := rfl
@[simp] theorem commitFloat16_draws (v : BitVec 32) (s : State) : (commitFloat16 v s).draws = drawsAfter s := rfl

/-! ## withAgenda -/

@[simp] theorem withAgenda_cmd (s : State) (turns : List Turn) : (s.withAgenda turns).cmd = s.cmd := rfl
@[simp] theorem withAgenda_result (s : State) (turns : List Turn) : (s.withAgenda turns).result = s.result := rfl
@[simp] theorem withAgenda_pending (s : State) (turns : List Turn) : (s.withAgenda turns).pending = s.pending := rfl
@[simp] theorem withAgenda_rxlen (s : State) (turns : List Turn) : (s.withAgenda turns).rxlen = s.rxlen := rfl
@[simp] theorem withAgenda_rx (s : State) (turns : List Turn) : (s.withAgenda turns).rx = s.rx := rfl
@[simp] theorem withAgenda_txlen (s : State) (turns : List Turn) : (s.withAgenda turns).txlen = s.txlen := rfl
@[simp] theorem withAgenda_tx (s : State) (turns : List Turn) : (s.withAgenda turns).tx = s.tx := rfl
@[simp] theorem withAgenda_msgCt (s : State) (turns : List Turn) : (s.withAgenda turns).msgCt = s.msgCt := rfl
@[simp] theorem withAgenda_msgSrc (s : State) (turns : List Turn) : (s.withAgenda turns).msgSrc = s.msgSrc := rfl
@[simp] theorem withAgenda_msgDst (s : State) (turns : List Turn) : (s.withAgenda turns).msgDst = s.msgDst := rfl
@[simp] theorem withAgenda_msgLen (s : State) (turns : List Turn) : (s.withAgenda turns).msgLen = s.msgLen := rfl
@[simp] theorem withAgenda_payload (s : State) (turns : List Turn) : (s.withAgenda turns).payload = s.payload := rfl
@[simp] theorem withAgenda_deliverCnt (s : State) (turns : List Turn) : (s.withAgenda turns).deliverCnt = s.deliverCnt := rfl
@[simp] theorem withAgenda_dptResult (s : State) (turns : List Turn) : (s.withAgenda turns).dptResult = s.dptResult := rfl
@[simp] theorem withAgenda_params (s : State) (turns : List Turn) : (s.withAgenda turns).params = s.params := rfl
@[simp] theorem withAgenda_agenda (s : State) (turns : List Turn) : (s.withAgenda turns).agenda = turns := rfl
@[simp] theorem withAgenda_trace (s : State) (turns : List Turn) : (s.withAgenda turns).trace = s.trace := rfl
@[simp] theorem withAgenda_draws (s : State) (turns : List Turn) : (s.withAgenda turns).draws = s.draws := rfl

/-! ## commitDatagram -/

@[simp] theorem commitDatagram_cmd (bytes : List Byte) (s : State) : (commitDatagram bytes s).cmd = s.cmd := rfl
@[simp] theorem commitDatagram_result (bytes : List Byte) (s : State) : (commitDatagram bytes s).result = s.result := rfl
@[simp] theorem commitDatagram_pending (bytes : List Byte) (s : State) : (commitDatagram bytes s).pending = s.pending := rfl
@[simp] theorem commitDatagram_rxlen (bytes : List Byte) (s : State) : (commitDatagram bytes s).rxlen = s.rxlen := rfl
@[simp] theorem commitDatagram_rx (bytes : List Byte) (s : State) : (commitDatagram bytes s).rx = s.rx := rfl
@[simp] theorem commitDatagram_txlen (bytes : List Byte) (s : State) : (commitDatagram bytes s).txlen = BitVec.ofNat 16 bytes.length := rfl
@[simp] theorem commitDatagram_tx (bytes : List Byte) (s : State) : (commitDatagram bytes s).tx = memPutAll s.tx 0 bytes := rfl
@[simp] theorem commitDatagram_msgCt (bytes : List Byte) (s : State) : (commitDatagram bytes s).msgCt = s.msgCt := rfl
@[simp] theorem commitDatagram_msgSrc (bytes : List Byte) (s : State) : (commitDatagram bytes s).msgSrc = s.msgSrc := rfl
@[simp] theorem commitDatagram_msgDst (bytes : List Byte) (s : State) : (commitDatagram bytes s).msgDst = s.msgDst := rfl
@[simp] theorem commitDatagram_msgLen (bytes : List Byte) (s : State) : (commitDatagram bytes s).msgLen = s.msgLen := rfl
@[simp] theorem commitDatagram_payload (bytes : List Byte) (s : State) : (commitDatagram bytes s).payload = s.payload := rfl
@[simp] theorem commitDatagram_deliverCnt (bytes : List Byte) (s : State) : (commitDatagram bytes s).deliverCnt = s.deliverCnt := rfl
@[simp] theorem commitDatagram_dptResult (bytes : List Byte) (s : State) : (commitDatagram bytes s).dptResult = s.dptResult := rfl
@[simp] theorem commitDatagram_params (bytes : List Byte) (s : State) : (commitDatagram bytes s).params = s.params := rfl
@[simp] theorem commitDatagram_agenda (bytes : List Byte) (s : State) : (commitDatagram bytes s).agenda = s.agenda := rfl
@[simp] theorem commitDatagram_trace (bytes : List Byte) (s : State) : (commitDatagram bytes s).trace = s.trace := rfl
@[simp] theorem commitDatagram_draws (bytes : List Byte) (s : State) : (commitDatagram bytes s).draws = s.draws := rfl

/-! ## takeReset -/

@[simp] theorem takeReset_cmd (s : State) : (takeReset s).cmd = 0 := rfl
@[simp] theorem takeReset_result (s : State) : (takeReset s).result = .none := rfl
@[simp] theorem takeReset_pending (s : State) : (takeReset s).pending = none := rfl
@[simp] theorem takeReset_rxlen (s : State) : (takeReset s).rxlen = 0 := rfl
@[simp] theorem takeReset_rx (s : State) : (takeReset s).rx = [] := rfl
@[simp] theorem takeReset_txlen (s : State) : (takeReset s).txlen = 0 := rfl
@[simp] theorem takeReset_tx (s : State) : (takeReset s).tx = [] := rfl
@[simp] theorem takeReset_msgCt (s : State) : (takeReset s).msgCt = 0 := rfl
@[simp] theorem takeReset_msgSrc (s : State) : (takeReset s).msgSrc = 0 := rfl
@[simp] theorem takeReset_msgDst (s : State) : (takeReset s).msgDst = 0 := rfl
@[simp] theorem takeReset_msgLen (s : State) : (takeReset s).msgLen = 0 := rfl
@[simp] theorem takeReset_payload (s : State) : (takeReset s).payload = [] := rfl
@[simp] theorem takeReset_deliverCnt (s : State) : (takeReset s).deliverCnt = 0 := rfl
@[simp] theorem takeReset_dptResult (s : State) : (takeReset s).dptResult = 0 := rfl
@[simp] theorem takeReset_params (s : State) : (takeReset s).params = s.params := rfl
@[simp] theorem takeReset_agenda (s : State) : (takeReset s).agenda = s.agenda := rfl
@[simp] theorem takeReset_trace (s : State) : (takeReset s).trace = s.trace := rfl
@[simp] theorem takeReset_draws (s : State) : (takeReset s).draws = s.draws := rfl

/-! ## writeRx -/

@[simp] theorem writeRx_cmd (s : State) (off : Nat) (bytes : List Byte) : (s.write .rx off bytes).cmd = s.cmd := rfl
@[simp] theorem writeRx_result (s : State) (off : Nat) (bytes : List Byte) : (s.write .rx off bytes).result = s.result := rfl
@[simp] theorem writeRx_pending (s : State) (off : Nat) (bytes : List Byte) : (s.write .rx off bytes).pending = s.pending := rfl
@[simp] theorem writeRx_rxlen (s : State) (off : Nat) (bytes : List Byte) : (s.write .rx off bytes).rxlen = s.rxlen := rfl
@[simp] theorem writeRx_rx (s : State) (off : Nat) (bytes : List Byte) : (s.write .rx off bytes).rx = memPutAll s.rx off bytes := rfl
@[simp] theorem writeRx_txlen (s : State) (off : Nat) (bytes : List Byte) : (s.write .rx off bytes).txlen = s.txlen := rfl
@[simp] theorem writeRx_tx (s : State) (off : Nat) (bytes : List Byte) : (s.write .rx off bytes).tx = s.tx := rfl
@[simp] theorem writeRx_msgCt (s : State) (off : Nat) (bytes : List Byte) : (s.write .rx off bytes).msgCt = s.msgCt := rfl
@[simp] theorem writeRx_msgSrc (s : State) (off : Nat) (bytes : List Byte) : (s.write .rx off bytes).msgSrc = s.msgSrc := rfl
@[simp] theorem writeRx_msgDst (s : State) (off : Nat) (bytes : List Byte) : (s.write .rx off bytes).msgDst = s.msgDst := rfl
@[simp] theorem writeRx_msgLen (s : State) (off : Nat) (bytes : List Byte) : (s.write .rx off bytes).msgLen = s.msgLen := rfl
@[simp] theorem writeRx_payload (s : State) (off : Nat) (bytes : List Byte) : (s.write .rx off bytes).payload = s.payload := rfl
@[simp] theorem writeRx_deliverCnt (s : State) (off : Nat) (bytes : List Byte) : (s.write .rx off bytes).deliverCnt = s.deliverCnt := rfl
@[simp] theorem writeRx_dptResult (s : State) (off : Nat) (bytes : List Byte) : (s.write .rx off bytes).dptResult = s.dptResult := rfl
@[simp] theorem writeRx_params (s : State) (off : Nat) (bytes : List Byte) : (s.write .rx off bytes).params = s.params := rfl
@[simp] theorem writeRx_agenda (s : State) (off : Nat) (bytes : List Byte) : (s.write .rx off bytes).agenda = s.agenda := rfl
@[simp] theorem writeRx_trace (s : State) (off : Nat) (bytes : List Byte) : (s.write .rx off bytes).trace = s.trace := rfl
@[simp] theorem writeRx_draws (s : State) (off : Nat) (bytes : List Byte) : (s.write .rx off bytes).draws = s.draws := rfl

/-! ## writeTx -/

@[simp] theorem writeTx_cmd (s : State) (off : Nat) (bytes : List Byte) : (s.write .tx off bytes).cmd = s.cmd := rfl
@[simp] theorem writeTx_result (s : State) (off : Nat) (bytes : List Byte) : (s.write .tx off bytes).result = s.result := rfl
@[simp] theorem writeTx_pending (s : State) (off : Nat) (bytes : List Byte) : (s.write .tx off bytes).pending = s.pending := rfl
@[simp] theorem writeTx_rxlen (s : State) (off : Nat) (bytes : List Byte) : (s.write .tx off bytes).rxlen = s.rxlen := rfl
@[simp] theorem writeTx_rx (s : State) (off : Nat) (bytes : List Byte) : (s.write .tx off bytes).rx = s.rx := rfl
@[simp] theorem writeTx_txlen (s : State) (off : Nat) (bytes : List Byte) : (s.write .tx off bytes).txlen = s.txlen := rfl
@[simp] theorem writeTx_tx (s : State) (off : Nat) (bytes : List Byte) : (s.write .tx off bytes).tx = memPutAll s.tx off bytes := rfl
@[simp] theorem writeTx_msgCt (s : State) (off : Nat) (bytes : List Byte) : (s.write .tx off bytes).msgCt = s.msgCt := rfl
@[simp] theorem writeTx_msgSrc (s : State) (off : Nat) (bytes : List Byte) : (s.write .tx off bytes).msgSrc = s.msgSrc := rfl
@[simp] theorem writeTx_msgDst (s : State) (off : Nat) (bytes : List Byte) : (s.write .tx off bytes).msgDst = s.msgDst := rfl
@[simp] theorem writeTx_msgLen (s : State) (off : Nat) (bytes : List Byte) : (s.write .tx off bytes).msgLen = s.msgLen := rfl
@[simp] theorem writeTx_payload (s : State) (off : Nat) (bytes : List Byte) : (s.write .tx off bytes).payload = s.payload := rfl
@[simp] theorem writeTx_deliverCnt (s : State) (off : Nat) (bytes : List Byte) : (s.write .tx off bytes).deliverCnt = s.deliverCnt := rfl
@[simp] theorem writeTx_dptResult (s : State) (off : Nat) (bytes : List Byte) : (s.write .tx off bytes).dptResult = s.dptResult := rfl
@[simp] theorem writeTx_params (s : State) (off : Nat) (bytes : List Byte) : (s.write .tx off bytes).params = s.params := rfl
@[simp] theorem writeTx_agenda (s : State) (off : Nat) (bytes : List Byte) : (s.write .tx off bytes).agenda = s.agenda := rfl
@[simp] theorem writeTx_trace (s : State) (off : Nat) (bytes : List Byte) : (s.write .tx off bytes).trace = s.trace := rfl
@[simp] theorem writeTx_draws (s : State) (off : Nat) (bytes : List Byte) : (s.write .tx off bytes).draws = s.draws := rfl

/-! ## writePayload -/

@[simp] theorem writePayload_cmd (s : State) (off : Nat) (bytes : List Byte) : (s.write .payload off bytes).cmd = s.cmd := rfl
@[simp] theorem writePayload_result (s : State) (off : Nat) (bytes : List Byte) : (s.write .payload off bytes).result = s.result := rfl
@[simp] theorem writePayload_pending (s : State) (off : Nat) (bytes : List Byte) : (s.write .payload off bytes).pending = s.pending := rfl
@[simp] theorem writePayload_rxlen (s : State) (off : Nat) (bytes : List Byte) : (s.write .payload off bytes).rxlen = s.rxlen := rfl
@[simp] theorem writePayload_rx (s : State) (off : Nat) (bytes : List Byte) : (s.write .payload off bytes).rx = s.rx := rfl
@[simp] theorem writePayload_txlen (s : State) (off : Nat) (bytes : List Byte) : (s.write .payload off bytes).txlen = s.txlen := rfl
@[simp] theorem writePayload_tx (s : State) (off : Nat) (bytes : List Byte) : (s.write .payload off bytes).tx = s.tx := rfl
@[simp] theorem writePayload_msgCt (s : State) (off : Nat) (bytes : List Byte) : (s.write .payload off bytes).msgCt = s.msgCt := rfl
@[simp] theorem writePayload_msgSrc (s : State) (off : Nat) (bytes : List Byte) : (s.write .payload off bytes).msgSrc = s.msgSrc := rfl
@[simp] theorem writePayload_msgDst (s : State) (off : Nat) (bytes : List Byte) : (s.write .payload off bytes).msgDst = s.msgDst := rfl
@[simp] theorem writePayload_msgLen (s : State) (off : Nat) (bytes : List Byte) : (s.write .payload off bytes).msgLen = s.msgLen := rfl
@[simp] theorem writePayload_payload (s : State) (off : Nat) (bytes : List Byte) : (s.write .payload off bytes).payload = memPutAll s.payload off bytes := rfl
@[simp] theorem writePayload_deliverCnt (s : State) (off : Nat) (bytes : List Byte) : (s.write .payload off bytes).deliverCnt = s.deliverCnt := rfl
@[simp] theorem writePayload_dptResult (s : State) (off : Nat) (bytes : List Byte) : (s.write .payload off bytes).dptResult = s.dptResult := rfl
@[simp] theorem writePayload_params (s : State) (off : Nat) (bytes : List Byte) : (s.write .payload off bytes).params = s.params := rfl
@[simp] theorem writePayload_agenda (s : State) (off : Nat) (bytes : List Byte) : (s.write .payload off bytes).agenda = s.agenda := rfl
@[simp] theorem writePayload_trace (s : State) (off : Nat) (bytes : List Byte) : (s.write .payload off bytes).trace = s.trace := rfl
@[simp] theorem writePayload_draws (s : State) (off : Nat) (bytes : List Byte) : (s.write .payload off bytes).draws = s.draws := rfl

/-! ## The ends of a command, and stores -/

@[simp] theorem raiseDiscard_eq (r : ResultCode) (s : State) : raiseDiscard r s = complete r s := rfl
@[simp] theorem raiseError_eq (r : ResultCode) (s : State) : raiseError r s = complete r s := rfl
@[simp] theorem illegalCommand_eq (s : State) : illegalCommand s = complete .errIllegalCmd s := rfl
@[simp] theorem acceptMessage_eq (m : Message) (s : State) :
    acceptMessage m s = complete .delivered (deliver m (commitMessage m s)) := rfl
@[simp] theorem store_rx (s : State) : s.store .rx = s.rx := rfl
@[simp] theorem store_tx (s : State) : s.store .tx = s.tx := rfl
@[simp] theorem store_payload (s : State) : s.store .payload = s.payload := rfl
@[simp] theorem busy_complete (r : ResultCode) (s : State) : (complete r s).busy = false := rfl
@[simp] theorem busy_latchCommand (v : Byte) (s : State) : (latchCommand v s).busy = true := rfl
@[simp] theorem busy_withAgenda (s : State) (turns : List Turn) : (s.withAgenda turns).busy = s.busy := rfl

/-! ## STATUS -/

/-- STATUS after a command ends: BUSY = 0 and the code (10_state R17). -/
@[simp] theorem complete_status (r : ResultCode) (s : State) : (complete r s).status = 0#1 ++ r.code := rfl

/-- STATUS after a CMD write: BUSY = 1, RESULT = NONE (10_state R16). -/
@[simp] theorem latchCommand_status (v : Byte) (s : State) : (latchCommand v s).status = 0x80 := by
  simp [State.status, State.busy, ResultCode.code]

/-- STATUS after the reset input: 0x00 (70_reset_and_hazards R151). -/
@[simp] theorem takeReset_status (s : State) : (takeReset s).status = 0x00 := by
  simp [State.status, State.busy, ResultCode.code]

/-- BUSY is 1 exactly while a command is latched (10_state R17, R32). -/
theorem busy_eq_false {s : State} : s.busy = false ↔ s.pending = none := by simp [State.busy]

end Sys2Proof.Machine
end

