-- ==== Sys2Proof/Laws/Bus.lean ====
section
/-! SUPPORT. The host port: what an address names, and everything a host read or write can do. -/

namespace Sys2Proof.Machine

/-! ## The address map -/

theorem placeOf_payload {a : Addr} {k : Nat} (hk : k < 255) (h : a.toNat = 0x0100 + k) : placeOf a = .payload k := by
  unfold placeOf
  simp only
  iterate 20 rw [if_neg (by omega)]
  rw [if_neg (by omega), if_pos (by omega), h, Nat.add_sub_cancel_left]

theorem placeOf_rx {a : Addr} {k : Nat} (hk : k < 1024) (h : a.toNat = 0x0400 + k) : placeOf a = .rx k := by
  unfold placeOf
  simp only
  iterate 20 rw [if_neg (by omega)]
  rw [if_neg (by omega), if_neg (by omega), if_pos (by omega), h, Nat.add_sub_cancel_left]

theorem placeOf_tx {a : Addr} {k : Nat} (hk : k < 512) (h : a.toNat = 0x0800 + k) : placeOf a = .tx k := by
  unfold placeOf
  simp only
  iterate 20 rw [if_neg (by omega)]
  rw [if_neg (by omega), if_neg (by omega), if_neg (by omega), if_pos (by omega), h, Nat.add_sub_cancel_left]

/-- An address below 0x0016 as a numeral. -/
theorem placeOf_small {a : Addr} (h : a.toNat < 0x0016) : ∃ n < 0x0016, a = BitVec.ofNat 16 n :=
  ⟨a.toNat, h, by simp⟩

/-- An address and what it holds: a buffer byte is in its buffer, and every other place has its own addresses. -/
theorem placeOf_cases (a : Addr) :
    (∃ k < 255, a.toNat = 0x0100 + k ∧ placeOf a = .payload k)
    ∨ (∃ k < 1024, a.toNat = 0x0400 + k ∧ placeOf a = .rx k)
    ∨ (∃ k < 512, a.toNat = 0x0800 + k ∧ placeOf a = .tx k)
    ∨ (∃ k < 8, a.toNat = 0x0020 + k ∧ placeOf a = .cfg k)
    ∨ (a.toNat < 0x0016 ∧ ∀ k, placeOf a ≠ .payload k ∧ placeOf a ≠ .rx k ∧ placeOf a ≠ .tx k ∧ placeOf a ≠ .cfg k)
    ∨ (0x0016 ≤ a.toNat ∧ placeOf a = .unmapped) := by
  by_cases h1 : 0x0100 ≤ a.toNat ∧ a.toNat ≤ 0x01FE
  · exact .inl ⟨a.toNat - 0x0100, by omega, by omega, placeOf_payload (by omega) (by omega)⟩
  by_cases h2 : 0x0400 ≤ a.toNat ∧ a.toNat ≤ 0x07FF
  · exact .inr (.inl ⟨a.toNat - 0x0400, by omega, by omega, placeOf_rx (by omega) (by omega)⟩)
  by_cases h3 : 0x0800 ≤ a.toNat ∧ a.toNat ≤ 0x09FF
  · exact .inr (.inr (.inl ⟨a.toNat - 0x0800, by omega, by omega, placeOf_tx (by omega) (by omega)⟩))
  by_cases h5 : a.toNat < 0x0016
  · refine .inr (.inr (.inr (.inr (.inl ⟨h5, fun k => ?_⟩))))
    obtain ⟨n, hn, rfl⟩ := placeOf_small h5
    interval_cases n <;> simp [placeOf]
  by_cases h4 : 0x0020 ≤ a.toNat ∧ a.toNat ≤ 0x0027
  · refine .inr (.inr (.inr (.inl ⟨a.toNat - 0x0020, by omega, by omega, ?_⟩)))
    unfold placeOf
    simp only
    iterate 20 rw [if_neg (by omega)]
    rw [if_pos h4]
  · refine .inr (.inr (.inr (.inr (.inr ⟨by omega, ?_⟩))))
    unfold placeOf
    simp only
    iterate 20 rw [if_neg (by omega)]
    rw [if_neg h4, if_neg h1, if_neg h2, if_neg h3]

/-- CMD is at address 0x0000 and nowhere else. -/
theorem placeOf_eq_cmd {a : Addr} : placeOf a = .cmd ↔ a = 0x0000 := by
  constructor
  · intro h
    rcases placeOf_cases a with ⟨k, -, -, e⟩ | ⟨k, -, -, e⟩ | ⟨k, -, -, e⟩ | ⟨k, -, -, e⟩ | ⟨e, -⟩ | ⟨-, e⟩
    all_goals first | (rw [e] at h; cases h) | skip
    obtain ⟨n, hn, rfl⟩ := placeOf_small e
    interval_cases n <;> first | rfl | (simp [placeOf] at h)
  · rintro rfl
    rfl

/-- STATUS is at address 0x0001 and nowhere else. -/
theorem placeOf_eq_status {a : Addr} : placeOf a = .status ↔ a = 0x0001 := by
  constructor
  · intro h
    rcases placeOf_cases a with ⟨k, -, -, e⟩ | ⟨k, -, -, e⟩ | ⟨k, -, -, e⟩ | ⟨k, -, -, e⟩ | ⟨e, -⟩ | ⟨-, e⟩
    all_goals first | (rw [e] at h; cases h) | skip
    obtain ⟨n, hn, rfl⟩ := placeOf_small e
    interval_cases n <;> first | rfl | (simp [placeOf] at h)
  · rintro rfl
    rfl

/-- The place a written address names: a buffer byte lies inside its buffer. -/
def Place.inBuffers : Place → Prop
  | .payload k => k < 255
  | .rx k      => k < 1024
  | .tx k      => k < 512
  | .cfg k     => k < 8
  | _          => True

theorem placeOf_inBuffers (a : Addr) : (placeOf a).inBuffers := by
  rcases placeOf_cases a with ⟨k, hk, -, h⟩ | ⟨k, hk, -, h⟩ | ⟨k, hk, -, h⟩ | ⟨k, hk, -, h⟩ | ⟨-, h⟩ | ⟨-, h⟩
  · rw [h]; exact hk
  · rw [h]; exact hk
  · rw [h]; exact hk
  · rw [h]; exact hk
  · cases hp : placeOf a <;> first | trivial | simp_all
  · rw [h]; trivial

/-! ## The map backwards -/

/-- The address of a place, from the map of 20_memory R42 read backwards; `none` for the unmapped addresses. -/
def Place.addr : Place → Option Nat
  | .cmd => some 0x0000
  | .status => some 0x0001
  | .rxlenHi => some 0x0002
  | .rxlenLo => some 0x0003
  | .txlenHi => some 0x0004
  | .txlenLo => some 0x0005
  | .msgCt => some 0x0006
  | .msgLen => some 0x0007
  | .msgSrcHi => some 0x0008
  | .msgSrcLo => some 0x0009
  | .msgDstHi => some 0x000A
  | .msgDstLo => some 0x000B
  | .deliverCntHi => some 0x000C
  | .deliverCntLo => some 0x000D
  | .dptResult3 => some 0x0010
  | .dptResult2 => some 0x0011
  | .dptResult1 => some 0x0012
  | .dptResult0 => some 0x0013
  | .ident0 => some 0x0014
  | .ident1 => some 0x0015
  | .cfg k => some (0x0020 + k)
  | .payload k => some (0x0100 + k)
  | .rx k => some (0x0400 + k)
  | .tx k => some (0x0800 + k)
  | .unmapped => none

/-- A property of both branches is a property of the choice. -/
theorem ite_induction {α : Type} {c : Prop} [Decidable c] {x y : α} (P : α → Prop) (h1 : c → P x) (h2 : ¬c → P y) :
    P (if c then x else y) := by
  by_cases h : c
  · simpa [h] using h1 h
  · simpa [h] using h2 h

/-- What an address holds, the map of 20_memory R42 read backwards: a mapped place has its one address, and the unmapped
addresses are those of R43. -/
theorem placeOf_spec (a : Addr) :
    (placeOf a).addr = some a.toNat
    ∨ placeOf a = .unmapped ∧ (a.toNat = 0x000E ∨ a.toNat = 0x000F ∨ (0x0016 ≤ a.toNat ∧ a.toNat ≤ 0x001F)
        ∨ (0x0028 ≤ a.toNat ∧ a.toNat ≤ 0x00FF) ∨ (0x01FF ≤ a.toNat ∧ a.toNat ≤ 0x03FF) ∨ 0x0A00 ≤ a.toNat) := by
  unfold placeOf
  generalize a.toNat = n
  simp only
  iterate 24
    refine ite_induction (fun p : Place => p.addr = some n ∨ p = .unmapped ∧ _) (fun h => .inl ?_) fun h => ?_
    · simp only [Place.addr, Option.some.injEq]
      omega
  exact .inr ⟨rfl, by omega⟩

theorem placeOf_unmapped {a : Addr} (h : a.toNat = 0x000E ∨ a.toNat = 0x000F ∨ (0x0016 ≤ a.toNat ∧ a.toNat ≤ 0x001F)
    ∨ (0x0028 ≤ a.toNat ∧ a.toNat ≤ 0x00FF) ∨ (0x01FF ≤ a.toNat ∧ a.toNat ≤ 0x03FF) ∨ 0x0A00 ≤ a.toNat) :
    placeOf a = .unmapped := by
  unfold placeOf
  simp only
  iterate 24 rw [if_neg (by omega)]

/-- Two addresses that hold one mapped place are one address. -/
theorem placeOf_inj {a b : Addr} (h : placeOf a = placeOf b) : a = b ∨ placeOf a = .unmapped := by
  rcases placeOf_spec a with ha | ⟨ha, -⟩
  · rcases placeOf_spec b with hb | ⟨hb, -⟩
    · rw [← h, ha, Option.some.injEq] at hb
      exact .inl (BitVec.eq_of_toNat_eq hb)
    · exact .inr (h.trans hb)
  · exact .inr ha
/-! ## Reads -/

/-- Everything a host read can do. -/
theorem hostRead_cases (a : Addr) (s : State) :
    (s.busy = true ∧ a ≠ 0x0001 ∧ hostRead a s = .fault .hazardBusy)
    ∨ ((s.busy = false ∨ a = 0x0001) ∧
        ((∃ v, readPlace s (placeOf a) = .ok v ∧ hostRead a s = .next (emit (.read a v) s))
          ∨ ∃ st k, readPlace s (placeOf a) = .error (.uninit st k) ∧ hostRead a s = .fault (.uninit st k))) := by
  unfold hostRead
  by_cases hb : s.busy = true ∧ a ≠ 0x0001
  · left
    have : (placeOf a != .status) = true := by
      simp only [bne_iff_ne, ne_eq, placeOf_eq_status]
      exact hb.2
    exact ⟨hb.1, hb.2, by simp [hb.1, this]⟩
  · right
    refine ⟨by cases h : s.busy <;> simp_all, ?_⟩
    have : ¬ (s.busy && placeOf a != .status) = true := by
      simp only [Bool.and_eq_true, bne_iff_ne, ne_eq, placeOf_eq_status]
      exact hb
    rw [if_neg this]
    cases hr : readPlace s (placeOf a) with
    | ok v => exact .inl ⟨v, rfl, rfl⟩
    | error f =>
      right
      cases hp : placeOf a <;> simp only [hp, readPlace, reduceCtorEq] at hr <;>
        exact ⟨_, _, by rw [(readByte_error.mp hr).2], by rw [(readByte_error.mp hr).2]⟩

/-! ## Writes -/

/-- What no host write changes. -/
theorem writePlace_frame (v : Byte) (s : State) (p : Place) :
    (writePlace v s p).params = s.params ∧ (writePlace v s p).agenda = s.agenda ∧ (writePlace v s p).trace = s.trace
    ∧ (writePlace v s p).draws = s.draws ∧ (writePlace v s p).tx = s.tx ∧ (writePlace v s p).txlen = s.txlen
    ∧ (writePlace v s p).deliverCnt = s.deliverCnt ∧ (writePlace v s p).dptResult = s.dptResult := by
  cases p <;> simp [writePlace]

/-- A write to any place but CMD starts no command. -/
theorem writePlace_idle (v : Byte) (s : State) {p : Place} (h : p ≠ .cmd) :
    (writePlace v s p).pending = s.pending ∧ (writePlace v s p).result = s.result ∧ (writePlace v s p).cmd = s.cmd := by
  cases p <;> simp [writePlace] at h ⊢

/-- A host write keeps every store in canonical form. -/
theorem writePlace_memWf (v : Byte) {s : State} {p : Place} (hs : s.memWf) (hp : p.inBuffers) :
    (writePlace v s p).memWf := by
  simp only [State.memWf, Bool.and_eq_true] at hs ⊢
  obtain ⟨⟨h1, h2⟩, h3⟩ := hs
  cases p <;> simp only [writePlace, latchCommand_rx, latchCommand_tx, latchCommand_payload, writeRx_rx, writeRx_tx,
    writeRx_payload, writePayload_rx, writePayload_tx, writePayload_payload] <;>
    first
    | exact ⟨⟨h1, h2⟩, h3⟩
    | exact ⟨⟨h1, h2⟩, memPutAll_wf [v] h3 (by simp only [Place.inBuffers] at hp; simp; omega)⟩
    | exact ⟨⟨memPutAll_wf [v] h1 (by simp only [Place.inBuffers] at hp; simp; omega), h2⟩, h3⟩

/-- Everything a host write can do. -/
theorem hostWrite_cases (a : Addr) (v : Byte) (s : State) :
    (s.busy = true ∧ hostWrite a v s = .fault .hazardBusy)
    ∨ (s.busy = false ∧ hostWrite a v s = .next (writePlace v s (placeOf a))) := by
  unfold hostWrite
  cases s.busy <;> simp

/-! ## The bytes of a 16-bit register after one of them is written (20_memory R46) -/

@[simp] theorem hi8_withHi (r : BitVec 16) (v : Byte) : hi8 (withHi r v) = v := hi8_be16 v (lo8 r)
@[simp] theorem lo8_withHi (r : BitVec 16) (v : Byte) : lo8 (withHi r v) = lo8 r := lo8_be16 v (lo8 r)
@[simp] theorem hi8_withLo (r : BitVec 16) (v : Byte) : hi8 (withLo r v) = hi8 r := hi8_be16 (hi8 r) v
@[simp] theorem lo8_withLo (r : BitVec 16) (v : Byte) : lo8 (withLo r v) = v := lo8_be16 (hi8 r) v

end Sys2Proof.Machine
end

