-- ==== Sys2Proof/Laws/Dpt.lean ====
section
/-! SUPPORT. The DPT commands: everything their common frame can do, and what their values are. -/

namespace Sys2Proof.Machine

/-- Everything the common frame of the DPT commands can do (41_dpt R93). -/
theorem dptCommand_cases (need : Nat) (s : State) (value : Except Fault (BitVec 32))
    (commit : BitVec 32 → State → State) :
    (s.msgLen.toNat < need ∧ dptCommand need s value commit = .next (complete .errDptLen s))
    ∨ (need ≤ s.msgLen.toNat ∧ ∃ v, value = .ok v ∧ dptCommand need s value commit = .next (complete .dptOk (commit v s)))
    ∨ (need ≤ s.msgLen.toNat ∧ ∃ f, value = .error f ∧ dptCommand need s value commit = .fault f) := by
  unfold dptCommand
  by_cases h : s.msgLen.toNat < need
  · exact .inl ⟨h, by simp [h]⟩
  · right
    cases value with
    | ok v => exact .inl ⟨by omega, v, rfl, by simp [h]⟩
    | error f => exact .inr ⟨by omega, f, rfl, by simp [h]⟩

theorem dptByte_ok {s : State} {b : Byte} : dptByte s = .ok b ↔ memGet s.payload 1 = some b := readByte_ok

theorem dptWord16_ok {s : State} {w : BitVec 16} :
    dptWord16 s = .ok w ↔ ∃ b1 b2, memGet s.payload 1 = some b1 ∧ memGet s.payload 2 = some b2 ∧ w = be16 b1 b2 := by
  simp only [dptWord16, bind_ok, readByte_ok, store_payload, pure, Except.pure, Except.ok.injEq]
  constructor
  · rintro ⟨b1, h1, b2, h2, rfl⟩
    exact ⟨b1, b2, h1, h2, rfl⟩
  · rintro ⟨b1, b2, h1, h2, rfl⟩
    exact ⟨b1, h1, b2, h2, rfl⟩

theorem dptWord32_ok {s : State} {w : BitVec 32} :
    dptWord32 s = .ok w ↔ ∃ b1 b2 b3 b4, memGet s.payload 1 = some b1 ∧ memGet s.payload 2 = some b2
      ∧ memGet s.payload 3 = some b3 ∧ memGet s.payload 4 = some b4 ∧ w = be32 b1 b2 b3 b4 := by
  simp only [dptWord32, bind_ok, readByte_ok, store_payload, pure, Except.pure, Except.ok.injEq]
  constructor
  · rintro ⟨b1, h1, b2, h2, b3, h3, b4, h4, rfl⟩
    exact ⟨b1, b2, b3, b4, h1, h2, h3, h4, rfl⟩
  · rintro ⟨b1, b2, b3, b4, h1, h2, h3, h4, rfl⟩
    exact ⟨b1, h1, b2, h2, b3, h3, b4, h4, rfl⟩

/-- Four payload bytes stop only at an unwritten one, the first in order (60_exceptions R140). -/
theorem dptWord32_error {s : State} {f : Fault} :
    dptWord32 s = .error f ↔ ∃ k, 1 ≤ k ∧ k ≤ 4 ∧ (∀ j, 1 ≤ j → j < k → (memGet s.payload j).isSome)
      ∧ memGet s.payload k = none ∧ f = .uninit .payload k := by
  simp only [dptWord32, bind_error, readByte_error, readByte_ok, store_payload, pure, Except.pure, reduceCtorEq,
    and_false, exists_false, or_false]
  constructor
  · rintro (⟨h, rfl⟩ | ⟨b1, h1, ⟨h, rfl⟩ | ⟨b2, h2, ⟨h, rfl⟩ | ⟨b3, h3, h, rfl⟩⟩⟩)
    · exact ⟨1, by omega, by omega, fun j _ _ => by omega, h, rfl⟩
    · refine ⟨2, by omega, by omega, fun j _ _ => ?_, h, rfl⟩
      obtain rfl : j = 1 := by omega
      simp [h1]
    · refine ⟨3, by omega, by omega, fun j _ _ => ?_, h, rfl⟩
      rcases (show j = 1 ∨ j = 2 by omega) with rfl | rfl <;> simp [h1, h2]
    · refine ⟨4, by omega, by omega, fun j _ _ => ?_, h, rfl⟩
      rcases (show j = 1 ∨ j = 2 ∨ j = 3 by omega) with rfl | rfl | rfl <;> simp [h1, h2, h3]
  · rintro ⟨k, h1, h4, hj, h, rfl⟩
    rcases (show k = 1 ∨ k = 2 ∨ k = 3 ∨ k = 4 by omega) with rfl | rfl | rfl | rfl
    · exact .inl ⟨h, rfl⟩
    · obtain ⟨b1, e1⟩ := Option.isSome_iff_exists.mp (hj 1 (by omega) (by omega))
      exact .inr ⟨b1, e1, .inl ⟨h, rfl⟩⟩
    · obtain ⟨b1, e1⟩ := Option.isSome_iff_exists.mp (hj 1 (by omega) (by omega))
      obtain ⟨b2, e2⟩ := Option.isSome_iff_exists.mp (hj 2 (by omega) (by omega))
      exact .inr ⟨b1, e1, .inr ⟨b2, e2, .inl ⟨h, rfl⟩⟩⟩
    · obtain ⟨b1, e1⟩ := Option.isSome_iff_exists.mp (hj 1 (by omega) (by omega))
      obtain ⟨b2, e2⟩ := Option.isSome_iff_exists.mp (hj 2 (by omega) (by omega))
      obtain ⟨b3, e3⟩ := Option.isSome_iff_exists.mp (hj 3 (by omega) (by omega))
      exact .inr ⟨b1, e1, .inr ⟨b2, e2, .inr ⟨b3, e3, h, rfl⟩⟩⟩

theorem dptWord16_error {s : State} {f : Fault} :
    dptWord16 s = .error f ↔ (memGet s.payload 1 = none ∧ f = .uninit .payload 1)
      ∨ ((memGet s.payload 1).isSome ∧ memGet s.payload 2 = none ∧ f = .uninit .payload 2) := by
  simp only [dptWord16, bind_error, readByte_error, readByte_ok, store_payload, pure, Except.pure, reduceCtorEq,
    and_false, exists_false, or_false, Option.isSome_iff_exists]
  tauto

end Sys2Proof.Machine
end

