-- ==== Sys2Proof/Laws/Float.lean ====
section
/-! SUPPORT. Binary32 magnitudes: the order of patterns is the order of their values, and where `num / den` lies between
two neighbouring patterns. -/

namespace Sys2Proof.Machine

/-! ## Patterns and their values -/

/-- A pattern written as a shift and a significand: the significand fills 24 bits unless the shift is 0. -/
theorem magUnits_of_parts {sh sig : Nat} (h1 : sig ≤ 2 ^ 24) (h2 : sh = 0 ∨ 2 ^ 23 ≤ sig) :
    magUnits (sh * 2 ^ 23 + sig) = sig * 2 ^ sh := by
  unfold magUnits
  by_cases hs : sig < 2 ^ 23
  · obtain rfl : sh = 0 := by omega
    rw [if_pos (by omega)]
    simp
  by_cases hq : sig = 2 ^ 24
  · subst hq
    rw [if_neg (by omega), show (sh * 2 ^ 23 + 2 ^ 24) / 2 ^ 23 - 1 = sh + 1 by omega,
      show (sh * 2 ^ 23 + 2 ^ 24) % 2 ^ 23 = 0 by omega, pow_succ]
    ring
  · rw [if_neg (by omega), show (sh * 2 ^ 23 + sig) / 2 ^ 23 - 1 = sh by omega,
      show 2 ^ 23 + (sh * 2 ^ 23 + sig) % 2 ^ 23 = sig by omega]

/-- Every pattern has such parts. -/
theorem mag_parts (p : Nat) : ∃ sh sig, p = sh * 2 ^ 23 + sig ∧ sig < 2 ^ 24 ∧ (sh = 0 ∨ 2 ^ 23 ≤ sig) := by
  by_cases h : p < 2 ^ 23
  · exact ⟨0, p, by omega, by omega, .inl rfl⟩
  · exact ⟨p / 2 ^ 23 - 1, 2 ^ 23 + p % 2 ^ 23, by omega, by omega, .inr (by omega)⟩

theorem magUnits_lt_succ (p : Nat) : magUnits p < magUnits (p + 1) := by
  obtain ⟨sh, sig, rfl, h1, h2⟩ := mag_parts p
  rw [magUnits_of_parts (by omega) h2, add_assoc, magUnits_of_parts (by omega) (by omega)]
  exact Nat.mul_lt_mul_of_pos_right (by omega) (by positivity)

/-- Patterns are ordered as their values. -/
theorem magUnits_strictMono : StrictMono magUnits := strictMono_nat_of_lt_succ magUnits_lt_succ

/-! ## Where a rational lies -/

/-- The significand `magBelow` takes fills 24 bits unless the shift is 0. -/
theorem magBelow_parts (num den : Nat) :
    num * unitsPerOne / magStep num den < 2 ^ 24 ∧
      (magShift num den = 0 ∨ 2 ^ 23 ≤ num * unitsPerOne / magStep num den) := by
  have hdiv : num * unitsPerOne / magStep num den = num * unitsPerOne / den / 2 ^ magShift num den := by
    rw [magStep, Nat.div_div_eq_div_mul]
  rw [hdiv]
  unfold magShift
  generalize num * unitsPerOne / den = u
  by_cases hu : u < 2 ^ 24
  · have : u.log2 - 23 = 0 := by
      by_cases h0 : u = 0
      · subst h0; decide
      · have h := (Nat.log2_lt h0).mpr hu
        omega
    rw [this, pow_zero, Nat.div_one]
    exact ⟨hu, .inl rfl⟩
  · have h0 : u ≠ 0 := by omega
    have hl : 2 ^ u.log2 ≤ u := Nat.log2_self_le h0
    have hr : u < 2 ^ (u.log2 + 1) := Nat.lt_log2_self
    have h24 : 24 ≤ u.log2 := (Nat.le_log2 h0).mpr (by omega)
    obtain ⟨j, hj⟩ : ∃ j, u.log2 = j + 23 := ⟨u.log2 - 23, by omega⟩
    rw [hj, Nat.add_sub_cancel]
    rw [hj] at hl hr
    constructor
    · rw [Nat.div_lt_iff_lt_mul (by positivity)]
      calc u < 2 ^ (j + 23 + 1) := hr
        _ = 2 ^ 24 * 2 ^ j := by ring
    · right
      rw [Nat.le_div_iff_mul_le (by positivity)]
      calc 2 ^ 23 * 2 ^ j = 2 ^ (j + 23) := by ring
        _ ≤ u := hl

/-- The value of `magBelow` and of the pattern after it, and the exact rational between them (41_dpt R100). -/
theorem magBelow_spec (num den : Nat) :
    magUnits (magBelow num den) * den + magRest num den = num * unitsPerOne
    ∧ magUnits (magBelow num den + 1) * den = magUnits (magBelow num den) * den + magStep num den := by
  obtain ⟨h1, h2⟩ := magBelow_parts num den
  have hb : magUnits (magBelow num den) = num * unitsPerOne / magStep num den * 2 ^ magShift num den :=
    magUnits_of_parts (by omega) h2
  have ha : magUnits (magBelow num den + 1) = (num * unitsPerOne / magStep num den + 1) * 2 ^ magShift num den := by
    unfold magBelow
    rw [add_assoc]
    exact magUnits_of_parts (by omega) (by omega)
  rw [hb, ha]
  constructor
  · have := Nat.div_add_mod (num * unitsPerOne) (magStep num den)
    rw [magRest]
    rw [show num * unitsPerOne / magStep num den * 2 ^ magShift num den * den
      = magStep num den * (num * unitsPerOne / magStep num den) by unfold magStep; ring]
    exact this
  · unfold magStep
    ring

theorem magStep_pos {num den : Nat} (h : 0 < den) : 0 < magStep num den := by
  unfold magStep
  positivity

theorem magRest_lt {num den : Nat} (h : 0 < den) : magRest num den < magStep num den :=
  Nat.mod_lt _ (magStep_pos h)

/-- `magBelow` is the greatest pattern whose value is not above the rational. -/
theorem le_magBelow {num den p : Nat} (h : 0 < den) (hp : magUnits p * den ≤ num * unitsPerOne) : p ≤ magBelow num den := by
  by_contra hc
  have h1 : magUnits (magBelow num den + 1) ≤ magUnits p := magUnits_strictMono.monotone (by omega)
  have h2 := Nat.mul_le_mul_right den h1
  have := magBelow_spec num den
  have := magRest_lt (num := num) h
  omega

/-- The pattern `magNearest` takes is `magBelow` or the one after it. -/
theorem magNearest_cases (num den : Nat) :
    (magNearest num den = magBelow num den ∧ 2 * magRest num den ≤ magStep num den)
    ∨ (magNearest num den = magBelow num den + 1 ∧ magStep num den ≤ 2 * magRest num den) := by
  unfold magNearest
  split
  · exact .inl ⟨rfl, by omega⟩
  split
  · exact .inr ⟨rfl, by omega⟩
  · rcases Nat.mod_two_eq_zero_or_one (magBelow num den) with h | h
    · exact .inl ⟨by omega, by omega⟩
    · exact .inr ⟨by omega, by omega⟩

/-! ## Signs -/

/-- A pattern with its sign, read back: the sign bit is set exactly for a negative pattern that is not zero. -/
theorem signed_toNat {neg : Bool} {mag : Nat} (h : mag < 2 ^ 31) :
    (signed neg mag).toNat = if neg = true ∧ mag ≠ 0 then 2 ^ 31 + mag else mag := by
  unfold signed
  cases neg
  · simp
    omega
  · by_cases h0 : mag = 0
    · simp [h0]
    · simp [h0]
      omega

end Sys2Proof.Machine
end

