-- ==== Sys2Proof/Laws/Frame.lean ====
section
/-! SUPPORT. DECODE and ENCODE: when each check passes, and everything each command can do. -/

namespace Sys2Proof.Machine

/-! ## The checks of DECODE -/

/-- A RESULT code that DECODE discards with (10_state R18). -/
def ResultCode.isDiscard (r : ResultCode) : Bool := classOfBits (classBits r.code) == some .discard

/-- What a stop of DECODE may be: a discard code, or an unwritten byte of the received datagram. -/
def DecodeStop (s : State) (e : Stop) : Prop :=
  (∃ r : ResultCode, e = .discard r ∧ r.isDiscard = true)
  ∨ ∃ k, k < s.rxlen.toNat ∧ k < 526 ∧ memGet s.rx k = none ∧ e = .fault (.uninit .rx k)

theorem DecodeStop.discard {s : State} {r : ResultCode} (h : r.isDiscard = true) : DecodeStop s (.discard r) :=
  .inl ⟨r, rfl, h⟩

theorem DecodeStop.byte {s : State} {k : Nat} {e : Stop} (h : rxByte s k = .error e) (h1 : k < s.rxlen.toNat)
    (h2 : k < 526) : DecodeStop s e := by
  obtain ⟨h3, rfl⟩ := rxByte_error.mp h
  exact .inr ⟨k, h1, h2, h3, rfl⟩

theorem checkHeader_ok {p : Params} {hl ver : Byte} {svc : BitVec 16} {u : Unit} :
    checkHeader p hl ver svc = .ok u ↔
      (p.hdrCheckMode = .any → hl = headerLen ∧ ver = protocolVersion ∧ svc = p.svcRoutingInd)
      ∧ (p.hdrCheckMode = .all → hl = headerLen ∨ ver = protocolVersion ∨ svc = p.svcRoutingInd) := by
  unfold checkHeader
  cases p.hdrCheckMode
  · simp [bind_ok, discardIf_ok]
  · simp [discardIf_ok]
    tauto

theorem checkHeader_error {p : Params} {hl ver : Byte} {svc : BitVec 16} {e : Stop} {s : State}
    (h : checkHeader p hl ver svc = .error e) : DecodeStop s e := by
  unfold checkHeader at h
  cases hm : p.hdrCheckMode <;> simp only [hm, bind_error, discardIf_error] at h
  · rcases h with ⟨-, rfl⟩ | ⟨-, -, ⟨-, rfl⟩ | ⟨-, -, -, rfl⟩⟩ <;> exact .discard rfl
  · obtain ⟨-, rfl⟩ := h
    exact .discard rfl

/-- When every check of DECODE passes (42_decode R107 to R115). -/
theorem checkDatagram_ok {s : State} {n : Nat} {l : Byte} :
    checkDatagram s = .ok (n, l) ↔
      6 ≤ s.rxlen.toNat
      ∧ (∃ hl ver b2 b3, memGet s.rx 0 = some hl ∧ memGet s.rx 1 = some ver ∧ memGet s.rx 2 = some b2
          ∧ memGet s.rx 3 = some b3 ∧ checkHeader s.params hl ver (be16 b2 b3) = .ok ())
      ∧ 8 ≤ s.rxlen.toNat ∧ memGet s.rx 6 = some msgCodeLDataInd
      ∧ (∃ a, memGet s.rx 7 = some a ∧ a.toNat = n)
      ∧ 16 + n ≤ s.rxlen.toNat
      ∧ (∃ c2, memGet s.rx (9 + n) = some c2 ∧ dat s.params.ctrlLayout c2 = true)
      ∧ memGet s.rx (14 + n) = some l ∧ l ≠ 0 ∧ l.toNat ≤ s.params.maxPayload.toNat
      ∧ 16 + n + l.toNat ≤ s.rxlen.toNat := by
  simp only [checkDatagram, bind_ok, discardIf_ok, rxByte_ok, pure, Except.pure, Except.ok.injEq,
    Prod.mk.injEq, decide_eq_false_iff_not, not_lt, bne_eq_false_iff_eq, Bool.not_eq_false', beq_eq_false_iff_ne]
  simp only [fixedLen]
  constructor
  · rintro ⟨-, h6, hl, h0, ver, h1, b2, h2, b3, h3, ⟨⟩, hh, -, h8, c, hc, -, rfl, a, ha, -, hn, c2, hc2, -, hd, l', hl',
      -, hz, -, hm, -, ht, rfl, rfl⟩
    exact ⟨h6, ⟨hl, ver, b2, b3, h0, h1, h2, h3, hh⟩, h8, hc, ⟨a, ha, rfl⟩, hn, ⟨c2, hc2, hd⟩, hl', hz, hm, ht⟩
  · rintro ⟨h6, ⟨hl, ver, b2, b3, h0, h1, h2, h3, hh⟩, h8, hc, ⟨a, ha, rfl⟩, hn, ⟨c2, hc2, hd⟩, hl', hz, hm, ht⟩
    exact ⟨(), h6, hl, h0, ver, h1, b2, h2, b3, h3, (), hh, (), h8, _, hc, (), rfl, a, ha, (), hn, c2, hc2, (), hd, l, hl',
      (), hz, (), hm, (), ht, rfl, rfl⟩

/-- A check that fails is a discard or an unwritten byte of the datagram. -/
theorem checkDatagram_error {s : State} {e : Stop} (h : checkDatagram s = .error e) : DecodeStop s e := by
  simp only [checkDatagram, bind_error, discardIf_error, discardIf_ok, decide_eq_true_eq, decide_eq_false_iff_not,
    not_lt] at h
  simp only [fixedLen] at h
  rcases h with ⟨-, rfl⟩ | ⟨-, h6, h⟩
  · exact .discard rfl
  rcases h with h | ⟨hl, -, h⟩
  · exact .byte h (by omega) (by omega)
  rcases h with h | ⟨ver, -, h⟩
  · exact .byte h (by omega) (by omega)
  rcases h with h | ⟨b2, -, h⟩
  · exact .byte h (by omega) (by omega)
  rcases h with h | ⟨b3, -, h⟩
  · exact .byte h (by omega) (by omega)
  rcases h with h | ⟨-, -, h⟩
  · exact checkHeader_error h
  rcases h with ⟨-, rfl⟩ | ⟨-, h8, h⟩
  · exact .discard rfl
  rcases h with h | ⟨c, -, h⟩
  · exact .byte h (by omega) (by omega)
  rcases h with ⟨-, rfl⟩ | ⟨-, -, h⟩
  · exact .discard rfl
  rcases h with h | ⟨a, -, h⟩
  · exact .byte h (by omega) (by omega)
  have ha := a.isLt
  rcases h with ⟨-, rfl⟩ | ⟨-, hn, h⟩
  · exact .discard rfl
  rcases h with h | ⟨c2, -, h⟩
  · exact .byte h (by omega) (by omega)
  rcases h with ⟨-, rfl⟩ | ⟨-, -, h⟩
  · exact .discard rfl
  rcases h with h | ⟨l, -, h⟩
  · exact .byte h (by omega) (by omega)
  rcases h with ⟨-, rfl⟩ | ⟨-, -, h⟩
  · exact .discard rfl
  rcases h with ⟨-, rfl⟩ | ⟨-, -, h⟩
  · exact .discard rfl
  rcases h with ⟨-, rfl⟩ | ⟨-, -, h⟩
  · exact .discard rfl
  · simp [pure, Except.pure] at h

/-- The message DECODE reads from an accepted datagram (42_decode R116). -/
theorem readMessage_ok {s : State} {n : Nat} {l : Byte} {m : Message} :
    readMessage s n l = .ok m ↔
      ∃ pci d0 s1 s0 e1 e0 rest, memGet s.rx (15 + n) = some pci ∧ memGet s.rx (16 + n) = some d0
        ∧ memGet s.rx (10 + n) = some s1 ∧ memGet s.rx (11 + n) = some s0
        ∧ memGet s.rx (12 + n) = some e1 ∧ memGet s.rx (13 + n) = some e0
        ∧ rest.length = l.toNat - 1 ∧ (∀ k < l.toNat - 1, memGet s.rx (17 + n + k) = rest[k]?)
        ∧ m = ⟨commandType pci d0, be16 s1 s0, be16 e1 e0, l, stripFragment d0 :: rest⟩ := by
  simp only [readMessage, bind_ok, rxByte_ok, rxBytes_ok, pure, Except.pure, Except.ok.injEq]
  constructor
  · rintro ⟨pci, h1, d0, h2, s1, h3, s0, h4, e1, h5, e0, h6, rest, ⟨h7, h8⟩, rfl⟩
    exact ⟨pci, d0, s1, s0, e1, e0, rest, h1, h2, h3, h4, h5, h6, h7, h8, rfl⟩
  · rintro ⟨pci, d0, s1, s0, e1, e0, rest, h1, h2, h3, h4, h5, h6, h7, h8, rfl⟩
    exact ⟨pci, h1, d0, h2, s1, h3, s0, h4, e1, h5, e0, h6, rest, ⟨h7, h8⟩, rfl⟩

theorem readMessage_error {s : State} {n : Nat} {l : Byte} {e : Stop} (hl : l ≠ 0) (hn : n < 256)
    (ht : 16 + n + l.toNat ≤ s.rxlen.toNat) (h : readMessage s n l = .error e) : DecodeStop s e := by
  have hl1 := l.isLt
  have hl0 : 1 ≤ l.toNat := by
    rcases Nat.eq_zero_or_pos l.toNat with h0 | h0
    · exact absurd (BitVec.eq_of_toNat_eq (by simpa using h0)) hl
    · exact h0
  simp only [readMessage, bind_error] at h
  rcases h with h | ⟨pci, -, h | ⟨d0, -, h | ⟨s1, -, h | ⟨s0, -, h | ⟨e1, -, h | ⟨e0, -, h | ⟨rest, -, h⟩⟩⟩⟩⟩⟩⟩
  · exact .byte h (by omega) (by omega)
  · exact .byte h (by omega) (by omega)
  · exact .byte h (by omega) (by omega)
  · exact .byte h (by omega) (by omega)
  · exact .byte h (by omega) (by omega)
  · exact .byte h (by omega) (by omega)
  · obtain ⟨k, hk, h1, rfl⟩ := rxBytes_error h
    exact .inr ⟨17 + n + k, by omega, by omega, h1, rfl⟩
  · simp [pure, Except.pure] at h

/-! ## Everything DECODE can do -/

/-- DECODE delivers a message whose checks passed, discards, or reads an unwritten byte of the datagram. -/
theorem execDecode_cases (s : State) :
    (∃ n l m, checkDatagram s = .ok (n, l) ∧ readMessage s n l = .ok m
        ∧ execDecode s = .next (complete .delivered (deliver m (commitMessage m s))))
    ∨ (∃ r : ResultCode, r.isDiscard = true ∧ execDecode s = .next (complete r s))
    ∨ ∃ k, k < s.rxlen.toNat ∧ k < 526 ∧ memGet s.rx k = none ∧ execDecode s = .fault (.uninit .rx k) := by
  have stop : ∀ e, DecodeStop s e →
      ((∃ r : ResultCode, r.isDiscard = true ∧ commandOutcome s (.error e) = .next (complete r s))
        ∨ ∃ k, k < s.rxlen.toNat ∧ k < 526 ∧ memGet s.rx k = none
            ∧ commandOutcome s (.error e) = .fault (.uninit .rx k)) := by
    rintro e (⟨r, rfl, hr⟩ | ⟨k, h1, h2, h3, rfl⟩)
    · exact .inl ⟨r, hr, rfl⟩
    · exact .inr ⟨k, h1, h2, h3, rfl⟩
  unfold execDecode
  cases hc : checkDatagram s with
  | error e => exact .inr (stop e (checkDatagram_error hc))
  | ok nl =>
    obtain ⟨n, l⟩ := nl
    obtain ⟨-, -, -, -, ⟨a, -, rfl⟩, -, -, -, hz, -, ht⟩ := checkDatagram_ok.mp hc
    cases hm : readMessage s a.toNat l with
    | error e =>
      right
      simpa [bind, Except.bind, hm] using stop e (readMessage_error hz a.isLt ht hm)
    | ok m => exact .inl ⟨a.toNat, l, m, rfl, hm, by simp [bind, Except.bind, hm, pure, Except.pure, commandOutcome]⟩

/-- A delivered message has as many bytes as its length says, at most 255. -/
theorem readMessage_length {s : State} {n : Nat} {l : Byte} {m : Message} (hl : l ≠ 0) (h : readMessage s n l = .ok m) :
    m.len = l ∧ m.bytes.length = l.toNat ∧ m.bytes.length ≤ 255 := by
  have hl1 := l.isLt
  have hl0 : 1 ≤ l.toNat := by
    rcases Nat.eq_zero_or_pos l.toNat with h0 | h0
    · exact absurd (BitVec.eq_of_toNat_eq (by simpa using h0)) hl
    · exact h0
  obtain ⟨pci, d0, s1, s0, e1, e0, rest, -, -, -, -, -, -, h7, -, rfl⟩ := readMessage_ok.mp h
  refine ⟨rfl, ?_, ?_⟩ <;> simp only [List.length_cons] <;> omega

/-! ## Everything ENCODE can do -/

theorem encodeLenBad_iff {s : State} :
    encodeLenBad s = true ↔ s.msgLen.toNat = 0 ∨ s.params.maxPayload.toNat < s.msgLen.toNat := by
  have h0 : s.msgLen = 0 ↔ s.msgLen.toNat = 0 :=
    ⟨fun h => by simp [h], fun h => BitVec.eq_of_toNat_eq (by simpa using h)⟩
  simp only [encodeLenBad, Bool.or_eq_true, beq_iff_eq, decide_eq_true_eq, h0]

@[simp] theorem encodeHeader_length (s : State) : (encodeHeader s).length = 16 := rfl

@[simp] theorem encodeData_length (ct : BitVec 4) (bs : List Byte) : (encodeData ct bs).length = bs.length := by
  cases bs <;> rfl

/-- ENCODE fails its length check, builds a datagram from payload bytes all written, or reads an unwritten one. -/
theorem execEncode_cases (s : State) :
    (encodeLenBad s = true ∧ execEncode s = .next (complete .errEncLen { s with txlen := 0 }))
    ∨ (encodeLenBad s = false ∧ ∃ bytes, readBytes s .payload 0 s.msgLen.toNat = .ok bytes
        ∧ execEncode s = .next (complete .encoded (commitDatagram (encodeHeader s ++ encodeData s.msgCt bytes) s)))
    ∨ (encodeLenBad s = false ∧ ∃ k < s.msgLen.toNat, memGet s.payload k = none
        ∧ execEncode s = .fault (.uninit .payload k)) := by
  unfold execEncode
  cases hb : encodeLenBad s
  · right
    cases hr : readBytes s .payload 0 s.msgLen.toNat with
    | ok bytes => exact .inl ⟨rfl, bytes, rfl, by simp⟩
    | error f =>
      obtain ⟨k, hk, h1, rfl⟩ := readBytes_error hr
      exact .inr ⟨rfl, k, hk, by simpa using h1, by simp⟩
  · exact .inl ⟨by simp, by simp⟩

/-! ## The commands' writes, as one record update -/

/-- What an accepting DECODE writes (42_decode R116, R117). -/
theorem complete_deliver_commitMessage (m : Message) (s : State) :
    complete .delivered (deliver m (commitMessage m s)) =
      { s with
        msgCt := m.ct, msgSrc := m.src, msgDst := m.dst, msgLen := m.len, payload := memPutAll s.payload 0 m.bytes
        deliverCnt := s.deliverCnt + 1, trace := .deliver m :: s.trace, result := .delivered, pending := none } := rfl

/-- What an ENCODE that succeeds writes (43_encode R128). -/
theorem complete_commitDatagram (bytes : List Byte) (s : State) :
    complete .encoded (commitDatagram bytes s) =
      { s with
        tx := memPutAll s.tx 0 bytes, txlen := BitVec.ofNat 16 bytes.length, result := .encoded, pending := none } := rfl

end Sys2Proof.Machine
end

