-- ==== Sys2Proof/Laws/PerInstr.lean ====
section
/-! SUPPORT. Statements made of every instruction as syntax: one lemma per constructor. -/

namespace Sys2Proof.Laws.Encoding

/-- A command's byte decodes to it; its CLASS field says which kind of command it is (30_encoding R63, R65). -/
def Statement (i : Instr) : Prop :=
  i.wf = true ∧ decode (encode i) = .ok i ∧ decodeTableWord 8 (encode i).toNat = some i
  ∧ (commandClass (encode i) = 0x0 ↔ i = .decode ∨ i = .encode)

theorem decode : Statement .decode := by unfold Statement; decide
theorem encode : Statement .encode := by unfold Statement; decide
theorem dptBool : Statement .dptBool := by unfold Statement; decide
theorem dptInt8 : Statement .dptInt8 := by unfold Statement; decide
theorem dptUint8 : Statement .dptUint8 := by unfold Statement; decide
theorem dptInt16 : Statement .dptInt16 := by unfold Statement; decide
theorem dptUint16 : Statement .dptUint16 := by unfold Statement; decide
theorem dptFloat16 : Statement .dptFloat16 := by unfold Statement; decide
theorem dptInt32 : Statement .dptInt32 := by unfold Statement; decide
theorem dptUint32 : Statement .dptUint32 := by unfold Statement; decide
theorem dptFloat32 : Statement .dptFloat32 := by unfold Statement; decide

end Sys2Proof.Laws.Encoding
end

