-- ==== Sys2Proof/Laws/Safety.lean ====
section
/-! SUPPORT. The small lemmas of the terms claims use: the value of a written byte, when the header check passes,
and when the host is done. -/

namespace Sys2Proof.Machine

theorem byteAt_of_memGet {s : State} {st : Store} {k : Nat} {b : Byte} (h : memGet (s.store st) k = some b) :
    s.byteAt st k = b := by
  simp [State.byteAt, h]

/-- A written byte holds its value. -/
theorem memGet_of_written {s : State} {st : Store} {k : Nat} (h : (memGet (s.store st) k).isSome) :
    memGet (s.store st) k = some (s.byteAt st k) := by
  obtain ⟨b, hb⟩ := Option.isSome_iff_exists.mp h
  rw [byteAt_of_memGet hb, hb]

/-- DECODE reads a written byte of RXBUF as RX[k]. -/
theorem rxByte_of_written {s : State} {k : Nat} (h : (memGet s.rx k).isSome) : rxByte s k = .ok (s.rxAt k) :=
  rxByte_ok.mpr (memGet_of_written (st := .rx) h)

/-- DECODE reads the service type of two written bytes as 30_encoding R68 says. -/
theorem be16_rxAt (s : State) : (be16 (s.rxAt 2) (s.rxAt 3)).toNat = s.rxService := be16_toNat _ _

/-- The header check passes exactly where the header does not fail under the build's mode (42_decode R108, R109). -/
theorem checkHeader_rxAt_ok {s : State} :
    checkHeader s.params (s.rxAt 0) (s.rxAt 1) (be16 (s.rxAt 2) (s.rxAt 3)) = .ok () ↔ ¬ s.headerFails := by
  have hl : s.rxAt 0 = headerLen ↔ (s.rxAt 0).toNat = 0x06 := by simp [← BitVec.toNat_inj, headerLen]
  have hv : s.rxAt 1 = protocolVersion ↔ (s.rxAt 1).toNat = 0x10 := by simp [← BitVec.toNat_inj, protocolVersion]
  rw [checkHeader_ok, hl, hv, ← BitVec.toNat_inj, be16_rxAt]
  unfold State.headerFails
  cases s.params.hdrCheckMode <;> simp
  tauto

/-- The host is done exactly when none of its turns is left (70_reset_and_hazards R164). -/
theorem hostDone_iff {s : State} : s.hostDone = true ↔ ∀ a, Turn.host a ∉ s.agenda := by
  simp only [State.hostDone, List.all_eq_true]
  refine ⟨fun h a ha => by simpa using h _ ha, fun h t ht => ?_⟩
  cases t with
  | host a => exact absurd ht (h a)
  | engine => rfl
  | reset => rfl

end Sys2Proof.Machine
end

