-- ==== Sys2Proof/Laws/Step.lean ====
section
/-! SUPPORT. Everything a command, the engine's step and a step of the machine can do. -/

namespace Sys2Proof.Machine

/-! ## Commands -/

/-- Everything a DPT command can do (41_dpt R93): fail its length check, write DPT_RESULT (and, for DPT.FLOAT16, the
count of draws), or read an unwritten payload byte. -/
theorem execDpt_cases {i : Instr} {n : Nat} (hi : dptNeed i = some n) (s : State) :
    (s.msgLen.toNat < n ∧ exec i s = .next (complete .errDptLen s))
    ∨ (n ≤ s.msgLen.toNat ∧ i ≠ .dptFloat16 ∧ ∃ v, exec i s = .next (complete .dptOk (setDptResult v s)))
    ∨ (n ≤ s.msgLen.toNat ∧ i = .dptFloat16 ∧ ∃ v, exec i s = .next (complete .dptOk (commitFloat16 v s)))
    ∨ (n ≤ s.msgLen.toNat ∧ ∃ k, 1 ≤ k ∧ k < n ∧ memGet s.payload k = none
        ∧ exec i s = .fault (.uninit .payload k)) := by
  have one : ∀ {f : Byte → BitVec 32} {e : Fault}, (dptByte s).map f = .error e →
      memGet s.payload 1 = none ∧ e = .uninit .payload 1 := by
    intro f e h
    unfold dptByte at h
    cases hb : readByte s .payload 1 with
    | ok b => simp [hb, Except.map] at h
    | error e' =>
      simp only [hb, Except.map, Except.error.injEq] at h
      subst h
      exact readByte_error.mp hb
  have two : ∀ {f : BitVec 16 → BitVec 32} {e : Fault}, (dptWord16 s).map f = .error e →
      ∃ k, 1 ≤ k ∧ k < 3 ∧ memGet s.payload k = none ∧ e = .uninit .payload k := by
    intro f e h
    cases hb : dptWord16 s with
    | ok b => simp [hb, Except.map] at h
    | error e' =>
      simp only [hb, Except.map, Except.error.injEq] at h
      subst h
      rcases dptWord16_error.mp hb with ⟨h1, rfl⟩ | ⟨-, h1, rfl⟩
      · exact ⟨1, by omega, by omega, h1, rfl⟩
      · exact ⟨2, by omega, by omega, h1, rfl⟩
  have four : ∀ {e : Fault}, dptWord32 s = .error e →
      ∃ k, 1 ≤ k ∧ k < 5 ∧ memGet s.payload k = none ∧ e = .uninit .payload k := by
    intro e h
    obtain ⟨k, h1, h4, -, hk, rfl⟩ := dptWord32_error.mp h
    exact ⟨k, h1, by omega, hk, rfl⟩
  have body : ∀ {value : Except Fault (BitVec 32)},
      (∀ e, value = .error e → ∃ k, 1 ≤ k ∧ k < n ∧ memGet s.payload k = none ∧ e = .uninit .payload k) →
      ∀ commit : BitVec 32 → State → State,
        (s.msgLen.toNat < n ∧ dptCommand n s value commit = .next (complete .errDptLen s))
        ∨ (n ≤ s.msgLen.toNat ∧ ∃ v, dptCommand n s value commit = .next (complete .dptOk (commit v s)))
        ∨ (n ≤ s.msgLen.toNat ∧ ∃ k, 1 ≤ k ∧ k < n ∧ memGet s.payload k = none
            ∧ dptCommand n s value commit = .fault (.uninit .payload k)) := by
    intro value hv commit
    rcases dptCommand_cases n s value commit with h | ⟨hn, v, -, h⟩ | ⟨hn, f, hf, h⟩
    · exact .inl h
    · exact .inr (.inl ⟨hn, v, h⟩)
    · obtain ⟨k, h1, h2, h3, rfl⟩ := hv f hf
      exact .inr (.inr ⟨hn, k, h1, h2, h3, h⟩)
  cases i <;> simp only [dptNeed, Option.some.injEq, reduceCtorEq] at hi <;> subst hi
  case dptFloat16 =>
    rcases body (fun e h => two h) commitFloat16 with h | ⟨hn, v, h⟩ | ⟨hn, h⟩
    · exact .inl h
    · exact .inr (.inr (.inl ⟨hn, rfl, v, h⟩))
    · exact .inr (.inr (.inr ⟨hn, h⟩))
  case dptBool | dptInt8 | dptUint8 =>
    rcases body (fun e h => ⟨1, by omega, by omega, one h⟩) setDptResult with h | ⟨hn, v, h⟩ | ⟨hn, h⟩
    · exact .inl h
    · exact .inr (.inl ⟨hn, by simp, v, h⟩)
    · exact .inr (.inr (.inr ⟨hn, h⟩))
  case dptInt16 | dptUint16 =>
    rcases body (fun e h => two h) setDptResult with h | ⟨hn, v, h⟩ | ⟨hn, h⟩
    · exact .inl h
    · exact .inr (.inl ⟨hn, by simp, v, h⟩)
    · exact .inr (.inr (.inr ⟨hn, h⟩))
  case dptInt32 | dptUint32 | dptFloat32 =>
    rcases body (fun e h => four h) setDptResult with h | ⟨hn, v, h⟩ | ⟨hn, h⟩
    · exact .inl h
    · exact .inr (.inl ⟨hn, by simp, v, h⟩)
    · exact .inr (.inr (.inr ⟨hn, h⟩))

/-- Every command ends, or stops at an unwritten byte. -/
theorem exec_cases (i : Instr) (s : State) :
    (∃ t, exec i s = .next t ∧ t.pending = none ∧ t.params = s.params ∧ t.agenda = s.agenda ∧ t.cmd = s.cmd
        ∧ t.rxlen = s.rxlen ∧ t.rx = s.rx)
    ∨ ∃ st k, memGet (s.store st) k = none ∧ exec i s = .fault (.uninit st k) := by
  have dpt : ∀ n, dptNeed i = some n →
      ((∃ t, exec i s = .next t ∧ t.pending = none ∧ t.params = s.params ∧ t.agenda = s.agenda ∧ t.cmd = s.cmd
          ∧ t.rxlen = s.rxlen ∧ t.rx = s.rx)
        ∨ ∃ st k, memGet (s.store st) k = none ∧ exec i s = .fault (.uninit st k)) := by
    intro n hn
    rcases execDpt_cases hn s with ⟨-, h⟩ | ⟨-, -, v, h⟩ | ⟨-, -, v, h⟩ | ⟨-, k, -, -, h1, h⟩
    · exact .inl ⟨_, h, rfl, rfl, rfl, rfl, rfl, rfl⟩
    · exact .inl ⟨_, h, rfl, rfl, rfl, rfl, rfl, rfl⟩
    · exact .inl ⟨_, h, rfl, rfl, rfl, rfl, rfl, rfl⟩
    · exact .inr ⟨.payload, k, h1, h⟩
  cases hi : dptNeed i with
  | some n => exact dpt n hi
  | none =>
    cases i <;> simp only [dptNeed, reduceCtorEq] at hi
    · rcases execDecode_cases s with ⟨n, l, m, -, -, h⟩ | ⟨r, -, h⟩ | ⟨k, -, -, h1, h⟩
      · exact .inl ⟨_, h, rfl, rfl, rfl, rfl, rfl, rfl⟩
      · exact .inl ⟨_, h, rfl, rfl, rfl, rfl, rfl, rfl⟩
      · exact .inr ⟨.rx, k, h1, h⟩
    · rcases execEncode_cases s with ⟨-, h⟩ | ⟨-, bytes, -, h⟩ | ⟨-, k, -, h1, h⟩
      · exact .inl ⟨_, h, rfl, rfl, rfl, rfl, rfl, rfl⟩
      · exact .inl ⟨_, h, rfl, rfl, rfl, rfl, rfl, rfl⟩
      · exact .inr ⟨.payload, k, h1, h⟩

/-- Canonical form depends on the three stores alone. -/
theorem memWf_iff {s : State} :
    s.memWf = true ↔ Memory.wf 1024 s.rx = true ∧ Memory.wf 512 s.tx = true ∧ Memory.wf 255 s.payload = true := by
  simp [State.memWf, and_assoc]

/-- Every command keeps every store in canonical form. -/
theorem exec_memWf {i : Instr} {s t : State} (hs : s.memWf = true) (h : exec i s = .next t) : t.memWf = true := by
  rw [memWf_iff] at hs ⊢
  obtain ⟨h1, h2, h3⟩ := hs
  cases hi : dptNeed i with
  | some n =>
    rcases execDpt_cases hi s with ⟨-, e⟩ | ⟨-, -, v, e⟩ | ⟨-, -, v, e⟩ | ⟨-, k, -, -, -, e⟩ <;>
      simp only [e, Host.Outcome.next.injEq, reduceCtorEq] at h <;> subst h <;> simp [h1, h2, h3]
  | none =>
    cases i <;> simp only [dptNeed, reduceCtorEq] at hi
    · rcases execDecode_cases s with ⟨n, l, m, hc, hm, e⟩ | ⟨r, -, e⟩ | ⟨k, -, -, -, e⟩ <;>
        simp only [exec, e, Host.Outcome.next.injEq, reduceCtorEq] at h <;> subst h
      · obtain ⟨-, -, -, -, -, -, -, -, hz, -, -⟩ := checkDatagram_ok.mp hc
        obtain ⟨-, -, hl⟩ := readMessage_length hz hm
        refine ⟨by simpa using h1, by simpa using h2, ?_⟩
        simp only [complete_payload, deliver_payload, commitMessage_payload]
        exact memPutAll_wf _ h3 (by omega)
      · simp [h1, h2, h3]
    · rcases execEncode_cases s with ⟨-, e⟩ | ⟨-, bytes, hr, e⟩ | ⟨-, k, -, -, e⟩ <;>
        simp only [exec, e, Host.Outcome.next.injEq, reduceCtorEq] at h <;> subst h
      · simp [h1, h2, h3]
      · have hl := (readBytes_ok.mp hr).1
        have := s.msgLen.isLt
        refine ⟨by simpa using h1, ?_, by simpa using h3⟩
        simp only [complete_tx, commitDatagram_tx]
        refine memPutAll_wf _ h2 ?_
        simp only [List.length_append, encodeHeader_length, encodeData_length]
        omega

/-! ## The engine -/

/-- Everything the engine's step can do. -/
theorem engineStep_cases (s : State) :
    (s.pending = none ∧ engineStep s = .next s)
    ∨ (∃ c i, s.pending = some c ∧ decode c = .ok i ∧ engineStep s = exec i s)
    ∨ ∃ c e, s.pending = some c ∧ decode c = .error e ∧ engineStep s = .next (complete .errIllegalCmd s) := by
  unfold engineStep
  cases hp : s.pending with
  | none => exact .inl ⟨rfl, rfl⟩
  | some c =>
    right
    cases hd : decode c with
    | ok i => exact .inl ⟨c, i, rfl, hd, by simp [hd]⟩
    | error e => exact .inr ⟨c, e, rfl, hd, by simp [hd]⟩

/-- The engine's step leaves nothing pending, or stops at an unwritten byte. -/
theorem engineStep_ends (s : State) :
    (∃ t, engineStep s = .next t ∧ t.pending = none ∧ t.params = s.params ∧ t.agenda = s.agenda)
    ∨ ∃ st k, memGet (s.store st) k = none ∧ engineStep s = .fault (.uninit st k) := by
  rcases engineStep_cases s with ⟨hp, h⟩ | ⟨c, i, -, -, h⟩ | ⟨c, e, -, -, h⟩
  · exact .inl ⟨s, h, hp, rfl, rfl⟩
  · rcases exec_cases i s with ⟨t, ht, h1, h2, h3, -, -, -⟩ | ⟨st, k, h1, ht⟩
    · exact .inl ⟨t, h.trans ht, h1, h2, h3⟩
    · exact .inr ⟨st, k, h1, h.trans ht⟩
  · exact .inl ⟨_, h, rfl, rfl, rfl⟩

/-! ## A step -/

/-- Everything a step of the machine can do: the engine, a host read or write, a WAIT, the reset input. -/
theorem step_cases (s : State) :
    (s.agenda = [] ∧ step s = engineStep s)
    ∨ (∃ rest, s.agenda = .engine :: rest ∧ step s = engineStep (s.withAgenda rest))
    ∨ (∃ rest, s.agenda = .reset :: rest ∧ step s = .next (takeReset (s.withAgenda rest)))
    ∨ (∃ a e rest, s.agenda = .host (.rd a e) :: rest ∧ step s = hostRead a (s.withAgenda rest))
    ∨ (∃ a v rest, s.agenda = .host (.wr a v) :: rest ∧ step s = hostWrite a v (s.withAgenda rest))
    ∨ (∃ rest, s.agenda = .host .wait :: rest ∧ s.busy = true ∧ step s = engineStep s)
    ∨ ∃ rest, s.agenda = .host .wait :: rest ∧ s.busy = false ∧ step s = .next (s.withAgenda rest) := by
  unfold step
  rcases h : s.agenda with _ | ⟨t, rest⟩
  · exact .inl ⟨rfl, rfl⟩
  right
  cases t with
  | engine => exact .inl ⟨rest, rfl, rfl⟩
  | reset => exact .inr (.inl ⟨rest, rfl, rfl⟩)
  | host access =>
    right
    right
    cases access with
    | rd a e => exact .inl ⟨a, e, rest, rfl, rfl⟩
    | wr a v => exact .inr (.inl ⟨a, v, rest, rfl, rfl⟩)
    | wait =>
      right
      right
      cases hb : s.busy
      · exact .inr ⟨rest, rfl, rfl, by simp⟩
      · exact .inl ⟨rest, rfl, rfl, by simp⟩

/-! ## Runs -/

theorem run_succ_next {k : Nat} {s t : State} (h : step s = .next t) : core.run (k + 1) s = core.run k t := by
  have h' : core.step s = .next t := h
  simp [Host.Core.run, h']

theorem run_succ_fault {k : Nat} {s : State} {f : Fault} (h : step s = .fault f) : core.run (k + 1) s = .fault f := by
  have h' : core.step s = .fault f := h
  simp [Host.Core.run, h']

end Sys2Proof.Machine
end

