-- ==== Sys2Proof/Tests/Slice0.lean ====
section
/-! SUPPORT. Tests: the well-formedness smoke, command words written out from 30_encoding R65, steps on vectors of
95_test_vectors, and a witness for the hypotheses of every statement that has some. -/

namespace Sys2Proof.Tests

open Sys2Proof Sys2Proof.Machine

/-! ## Small states -/

/-- The state after reset with a payload in MSG_PAYLOAD and its length in MSG_LEN. -/
def payloadState (bytes : List Byte) : State :=
  { State.reset with msgLen := BitVec.ofNat 8 bytes.length, payload := memPutAll [] 0 bytes }

/-- The state after reset with a datagram in RXBUF and its length in RXLEN. -/
def datagramState (bytes : List Byte) : State :=
  { State.reset with rxlen := BitVec.ofNat 16 bytes.length, rx := memPutAll [] 0 bytes }

/-- The reference datagram B of 95_test_vectors. -/
def refB : List Byte :=
  [0x06, 0x10, 0x05, 0x30, 0x00, 0x13, 0x29, 0x00, 0xBC, 0xE0, 0x11, 0x01, 0x0A, 0x03, 0x03, 0x00, 0x80, 0x0C, 0x90]

/-- The message of B, as V-ENC-1 gives it. -/
def messageB : State :=
  { payloadState [0x00, 0x0C, 0x90] with msgCt := 2, msgSrc := 0x1101, msgDst := 0x0A03 }

/-- The state with one byte of RXBUF never written. -/
def withHole (k : Nat) (s : State) : State := { s with rx := s.rx.filter fun c => c.1 != k }

/-- A state with a command pending and an agenda. -/
def pendingState (c : Byte) (turns : List Turn) : State := (latchCommand c State.reset).withAgenda turns

/-- The state under HDR_CHECK_MODE = ALL. -/
def underAll (s : State) : State := { s with params := { s.params with hdrCheckMode := .all } }

/-- The state under DPT9_ROUNDING = FAITHFUL. -/
def underFaithful (s : State) : State := { s with params := { s.params with dpt9Rounding := .faithful } }

/-- Whether an outcome is a next state with a property. -/
def ends (o : Host.Outcome State Fault Refusal) (p : State → Bool) : Bool :=
  match o with
  | .next t => p t
  | _ => false

/-- Whether an outcome is a fault. -/
def faults (o : Host.Outcome State Fault Refusal) (f : Fault) : Bool :=
  match o with
  | .fault g => g == f
  | _ => false

theorem ends_next {o : Host.Outcome State Fault Refusal} {p : State → Bool} (h : ends o p = true) :
    ∃ t, o = .next t ∧ p t = true := by
  cases o <;> simp [ends] at h ⊢
  exact h

/-! ## Well-formedness smoke: each check refuses an ill-formed term -/

/-- 30_encoding R91: a CMD write, then a read of another register with no WAIT between. -/
theorem test_programOk_refuses_read_before_wait : programOk [.wr 0x0000 0x01, .rd 0x0006 0x00, .wait] = false := by decide

theorem test_programOk_refuses_write_before_wait : programOk [.wr 0x0000 0x01, .wr 0x0002 0x00, .wait] = false := by decide

/-- R91 asks for a WAIT after every command-starting write, the last one too (log entry 16). -/
theorem test_programOk_refuses_missing_last_wait : programOk [.wr 0x0000 0x01] = false := by decide

theorem test_programOk_accepts_status_reads : programOk [.wr 0x0000 0x01, .rd 0x0001 0x80, .wait, .rd 0x0006 0x02] = true := by
  decide

/-- The pseudo-instructions of 30_encoding R89 keep R91 by construction. -/
theorem test_programOk_hostReceive : programOk (hostReceive refB) = true := by decide

/-- 00_scope R5: MAX_PAYLOAD is 1-255. -/
theorem test_legal_refuses_zero_maxPayload : Params.legal { Params.default with maxPayload := 0 } = false := by decide

theorem test_wf_has_no_operand_to_refuse : Instr.wf .dptFloat16 = true := by decide

theorem test_turnsOk_refuses_access_before_wait :
    turnsOk false [.host (.wr 0x0000 0x02), .engine, .host (.rd 0x0002 0x00)] = false := by decide

/-- A store out of canonical form: offsets that do not rise, and an offset outside the store. -/
theorem test_memory_wf_refuses : Memory.wf 512 [(3, 0x00), (3, 0x01)] = false ∧ Memory.wf 255 [(255, 0x00)] = false := by
  decide

/-! ## Command words written out from 30_encoding R63, R65: CLASS in bits 7..4, FUNC in bits 3..0 -/

theorem test_word_decode : decodeTableWord 8 0b00000001 = some .decode := by decide
theorem test_word_encode : decodeTableWord 8 0b00000010 = some .encode := by decide
theorem test_word_dptBool : decodeTableWord 8 0b00010000 = some .dptBool := by decide
theorem test_word_dptInt8 : decodeTableWord 8 0b00010001 = some .dptInt8 := by decide
theorem test_word_dptUint8 : decodeTableWord 8 0b00010010 = some .dptUint8 := by decide
theorem test_word_dptInt16 : decodeTableWord 8 0b00010011 = some .dptInt16 := by decide
theorem test_word_dptUint16 : decodeTableWord 8 0b00010100 = some .dptUint16 := by decide
theorem test_word_dptFloat16 : decodeTableWord 8 0b00010101 = some .dptFloat16 := by decide
theorem test_word_dptInt32 : decodeTableWord 8 0b00010110 = some .dptInt32 := by decide
theorem test_word_dptUint32 : decodeTableWord 8 0b00010111 = some .dptUint32 := by decide
theorem test_word_dptFloat32 : decodeTableWord 8 0b00011000 = some .dptFloat32 := by decide

/-- Illegal values of R66 and V-ILL decode to no command. -/
theorem test_word_illegal :
    [0x00, 0x03, 0x0F, 0x19, 0x20, 0x7F, 0x80, 0xFF].all (fun w => decodeTableWord 8 w == none) = true := by decide

/-- 30_encoding R90: "`WR 0x0000, 0x01` is 0x40000001, `RD 0x0001, 0x01` is 0x80000101 and WAIT is 0xC0000100". -/
theorem test_access_words :
    encodeProgram [.wr 0x0000 0x01, .rd 0x0001 0x01, .wait] = [0x40000001, 0x80000101, 0xC0000100] := by decide

/-- 95_test_vectors P6: `RD 0x0006`, without an expected value, is 80000600 (log entry 22). -/
theorem test_read_without_expect : encodeAccess (.rd 0x0006 0x00) = 0x80000600 := by decide

/-- A fetched word is the first thing the next step runs. -/
theorem test_withFetchWord : ends (step (State.reset.withFetchWord 8 0x10)) (fun t => t.result == .errDptLen) = true := by
  decide

/-! ## Steps on vectors of 95_test_vectors -/

/-- V-DEC-1: B delivers ct 2, src 0x1101, dst 0x0A03, len 3, P = 00 0C 90. -/
theorem test_decode_B : ends (exec .decode (datagramState refB)) (fun t =>
    t.status == 0x01 && t.msgCt == 2 && t.msgSrc == 0x1101 && t.msgDst == 0x0A03 && t.msgLen == 3 && t.deliverCnt == 1
      && t.payload == [(0, 0x00), (1, 0x0C), (2, 0x90)]) = true := by decide

/-- V-DEC-N1: two additional-info bytes are skipped. -/
theorem test_decode_skips_additional_info : ends (exec .decode (datagramState
    [0x06, 0x10, 0x05, 0x30, 0x00, 0x15, 0x29, 0x02, 0xAA, 0xBB, 0xBC, 0xE0, 0x11, 0x01, 0x0A, 0x03, 0x03, 0x00, 0x80, 0x0C, 0x90]))
    (fun t => t.status == 0x01 && t.msgSrc == 0x1101 && t.payload == [(0, 0x00), (1, 0x0C), (2, 0x90)]) = true := by decide

/-- V-ENC-1: the message of B encodes to B. -/
theorem test_encode_B : ends (exec .encode messageB) (fun t =>
    t.status == 0x02 && t.txlen == 19 && (List.range 19).map (fun k => memGet t.tx k) == refB.map some) = true := by decide

/-- V-ENC-4: command type 15 is split, and replaces bits 7..6 of P[0]. -/
theorem test_encode_splits_command_type : ends (exec .encode { payloadState [0x3F] with msgCt := 15 }) (fun t =>
    t.txlen == 17 && memGet t.tx 15 == some 0x03 && memGet t.tx 16 == some 0xFF) = true := by decide

/-- V-DPT-2 and V-DPT-3: bits 7..1 of P[1] are ignored. -/
theorem test_dptBool :
    ends (exec .dptBool (payloadState [0x00, 0xFE])) (fun t => t.status == 0x03 && t.dptResult == 0x00000000) = true
    ∧ ends (exec .dptBool (payloadState [0x00, 0xFF])) (fun t => t.dptResult == 0x00000001) = true := by decide

/-- V-DPT-7: -128. -/
theorem test_dptInt8 : ends (exec .dptInt8 (payloadState [0x00, 0x80])) (fun t => t.dptResult == 0xFFFFFF80) = true := by
  decide

/-- V-DPT-10: 156. -/
theorem test_dptUint8 : ends (exec .dptUint8 (payloadState [0x00, 0x9C])) (fun t => t.dptResult == 0x0000009C) = true := by
  decide

/-- V-DPT-15: -200, P[1] the high byte. -/
theorem test_dptInt16 : ends (exec .dptInt16 (payloadState [0x00, 0xFF, 0x38])) (fun t => t.dptResult == 0xFFFFFF38) = true := by
  decide

/-- V-DPT-18: 4660. -/
theorem test_dptUint16 : ends (exec .dptUint16 (payloadState [0x00, 0x12, 0x34])) (fun t => t.dptResult == 0x00001234) = true := by
  decide

/-- W5: 23.36, the corrected value of 90_conflicts C2. -/
theorem test_dptFloat16 : ends (exec .dptFloat16 (payloadState [0x00, 0x0C, 0x90])) (fun t =>
    t.status == 0x03 && t.dptResult == 0x41BAE148) = true := by decide

/-- W5: -30.0 under TWOS12 and -10.96 under SIGNMAG11 (90_conflicts C6). -/
theorem test_dptFloat16_negative :
    dpt9Value .twos12 .exact false 0x8A24 = 0xC1F00000 ∧ dpt9Value .signMag11 .exact false 0x8A24 = 0xC12F5C29 := by decide

/-- V-DPT-23: -500. -/
theorem test_dptInt32 : ends (exec .dptInt32 (payloadState [0x00, 0xFF, 0xFF, 0xFE, 0x0C])) (fun t =>
    t.dptResult == 0xFFFFFE0C) = true := by decide

/-- V-DPT-27: 65536. -/
theorem test_dptUint32 : ends (exec .dptUint32 (payloadState [0x00, 0x00, 0x01, 0x00, 0x00])) (fun t =>
    t.dptResult == 0x00010000) = true := by decide

/-- V-DPT-30: a NaN keeps its payload. -/
theorem test_dptFloat32 : ends (exec .dptFloat32 (payloadState [0x00, 0x7F, 0xC0, 0x00, 0x01])) (fun t =>
    t.dptResult == 0x7FC00001) = true := by decide

/-- V-MEM-4: RXLEN is big-endian in the map. -/
theorem test_rxlen_big_endian :
    ends (hostWrite 0x0002 0x01 { State.reset with rxlen := 0x0023 }) (fun t => t.rxlen == 0x0123) = true := by decide

/-- V-HZ-2: any access but a STATUS read while BUSY = 1. -/
theorem test_hazard : faults (hostRead 0x0006 (pendingState 0x01 [])) .hazardBusy = true := by decide

/-! ## Witnesses: the hypotheses of each statement, met together, clause by clause at boundary values -/

/-! ### Encodings -/

theorem witness_CommandByteDecodeEncodeAgree : decode 0x18 = .ok .dptFloat32 := by decide

theorem witness_AccessWordsDecodeEncodeAgree :
    decodeProgram [0x40FFFFFF, 0x80000000, 0xC0000100] = some [.wr 0xFFFF 0xFF, .rd 0x0000 0x00, .wait] := by
  decide

theorem witness_ResultClassIsBitsSixToFour : ResultCode.code .discDlenMax = ResultCode.code .discDlenMax := rfl

/-! ### The machine's step -/

theorem witness_StepRunsTheDecodedCommand :
    decode 0x10 = .ok .dptBool ∧ (pendingState 0x10 [.engine]).pending = some 0x10
    ∧ (pendingState 0x10 [.engine]).agenda = [.engine]
    ∧ (pendingState 0x10 [.host .wait]).agenda = [.host .wait] ∧ (pendingState 0x10 []).agenda = [] := by decide

theorem witness_StepTakesTheFirstTurn :
    State.reset.pending = none ∧ (State.reset.withAgenda [.host (.rd 0x0001 0x00)]).agenda = [.host (.rd 0x0001 0x00)]
    ∧ (State.reset.withAgenda [.host (.wr 0xFFFF 0xFF)]).agenda = [.host (.wr 0xFFFF 0xFF)]
    ∧ (State.reset.withAgenda [.host .wait]).agenda = [.host .wait] ∧ (State.reset.withAgenda [.engine]).agenda = [.engine]
    ∧ State.reset.agenda = [] := by decide

theorem witness_IllegalCommandWritesStatusOnly :
    (pendingState 0x00 []).pending = some 0x00 ∧ (∀ i : Instr, encode i ≠ 0x00) ∧ (∀ i : Instr, encode i ≠ 0x19)
    ∧ (pendingState 0x00 []).agenda = [] ∧ (pendingState 0x19 [.engine]).agenda = [.engine]
    ∧ (pendingState 0x19 [.host .wait]).agenda = [.host .wait] :=
  ⟨rfl, fun i => by cases i <;> decide, fun i => by cases i <;> decide, rfl, rfl, rfl⟩

/-- A command that ends, one that is illegal and so ends too, and one that selects a command. -/
theorem witness_CmdWriteLatchesTheCommand :
    (State.reset.withAgenda [.host (.wr 0x0000 0x10)]).pending = none
    ∧ (State.reset.withAgenda [.host (.wr 0x0000 0x10)]).agenda = [.host (.wr 0x0000 0x10)] ∧ decode 0x10 = .ok .dptBool
    ∧ ends (step (State.reset.withAgenda [.host (.wr 0x0000 0x10)])) (fun t => ends (engineStep t) fun _ => true) = true
    ∧ ends (step (State.reset.withAgenda [.host (.wr 0x0000 0x00)])) (fun t => ends (engineStep t) fun _ => true) = true := by
  decide

theorem pendingState_inv : (pendingState 0x01 []).inv := ⟨by decide, by decide, fun _ => rfl⟩

theorem witness_StatusByteShowsBusyAndResult :
    (pendingState 0x01 []).inv ∧ (pendingState 0x01 []).pending.isSome = true ∧ State.reset.pending = none :=
  ⟨pendingState_inv, rfl, rfl⟩

theorem witness_ResetTakesEveryRegisterToItsResetValue : (pendingState 0x01 [.reset]).agenda = [.reset] := rfl

/-! ### The host port -/

theorem witness_BusyAllowsOnlyStatusReads :
    (pendingState 0x01 []).pending.isSome = true ∧ (pendingState 0x01 []).inv ∧ (0x0000 : Addr) ≠ 0x0001
    ∧ (0x0002 : Addr) ≠ 0x0001 :=
  ⟨rfl, pendingState_inv, by decide, by decide⟩

/-- Each range of 20_memory R43, at its ends. -/
theorem witness_UnmappedAddressesReadZero :
    State.reset.pending = none
    ∧ [0x000E, 0x000F, 0x0016, 0x001F, 0x0028, 0x00FF, 0x01FF, 0x03FF, 0x0A00, 0xFFFF].all (fun a : Addr =>
        a.toNat = 0x000E ∨ a.toNat = 0x000F ∨ (0x0016 ≤ a.toNat ∧ a.toNat ≤ 0x001F) ∨ (0x0028 ≤ a.toNat ∧ a.toNat ≤ 0x00FF)
          ∨ (0x01FF ≤ a.toNat ∧ a.toNat ≤ 0x03FF) ∨ 0x0A00 ≤ a.toNat) = true
    ∧ [0x000E, 0x000F, 0x0016, 0x001F, 0x0028, 0x00FF, 0x01FF, 0x03FF, 0x0A00, 0xFFFF].all (fun a : Addr =>
        placeOf a == .unmapped) = true := by decide

/-- Each range of 20_memory R44, at its ends, and MSG_CT. -/
theorem witness_ReadOnlyAddressesIgnoreWrites :
    State.reset.pending = none
    ∧ [0x0001, 0x0004, 0x0005, 0x000C, 0x000D, 0x0010, 0x0015, 0x0020, 0x0027, 0x0800, 0x09FF].all (fun a : Addr =>
        a.toNat = 0x0001 ∨ a.toNat = 0x0004 ∨ a.toNat = 0x0005 ∨ a.toNat = 0x000C ∨ a.toNat = 0x000D
          ∨ (0x0010 ≤ a.toNat ∧ a.toNat ≤ 0x0015) ∨ (0x0020 ≤ a.toNat ∧ a.toNat ≤ 0x0027)
          ∨ (0x0800 ≤ a.toNat ∧ a.toNat ≤ 0x09FF)) = true
    ∧ (0x0006 : Addr).toNat = 0x0006
    ∧ ends (hostWrite 0x0006 0xF5 State.reset) (fun t => t.msgCt == 5) = true := by decide

theorem witness_OnlyCmdWritesHaveSideEffects :
    (∃ t, hostRead 0x0014 State.reset = .next t) ∧ (0x0002 : Addr) ≠ 0x0000 ∧ (0x0003 : Addr) ≠ 0x0002
    ∧ ∃ t, hostWrite 0x0002 0x01 State.reset = .next t := ⟨⟨_, rfl⟩, by decide, by decide, ⟨_, rfl⟩⟩

/-- Each range of writable addresses, at its ends. -/
theorem witness_HostReadReturnsTheByteWritten :
    State.reset.pending = none
    ∧ [0x0002, 0x0003, 0x0007, 0x000B, 0x0100, 0x01FE, 0x0400, 0x07FF].all (fun a : Addr =>
        a.toNat = 0x0002 ∨ a.toNat = 0x0003 ∨ (0x0007 ≤ a.toNat ∧ a.toNat ≤ 0x000B)
          ∨ (0x0100 ≤ a.toNat ∧ a.toNat ≤ 0x01FE) ∨ (0x0400 ≤ a.toNat ∧ a.toNat ≤ 0x07FF)) = true := by decide

/-- The last byte of each buffer, unwritten and written. -/
theorem witness_HostReadOfBuffers :
    State.reset.pending = none ∧ (0x01FE : Addr).toNat = 0x0100 + 254 ∧ (0x07FF : Addr).toNat = 0x0400 + 1023
    ∧ (0x09FF : Addr).toNat = 0x0800 + 511 ∧ memGet (State.reset.store .payload) 254 = none
    ∧ memGet (State.reset.store .rx) 1023 = none ∧ memGet (State.reset.store .tx) 511 = none
    ∧ memGet (({ State.reset with payload := [(254, 0x0C)] } : State).store .payload) 254 = some 0x0C
    ∧ memGet (({ State.reset with rx := [(1023, 0x0C)] } : State).store .rx) 1023 = some 0x0C
    ∧ memGet (({ State.reset with tx := [(511, 0x0C)] } : State).store .tx) 511 = some 0x0C := by decide

theorem witness_MultiByteRegistersAreBigEndian :
    State.reset.pending = none ∧ readPlace State.reset (placeOf 0x0014) = .ok 0x4B := ⟨rfl, rfl⟩

/-! ### The DPT commands -/

/-- The three clauses of the statements of DPT.BOOL, DPT.INT8 and DPT.UINT8, at MSG_LEN = 1 and 2. -/
theorem witness_DptOneByte :
    (payloadState [0x00]).msgLen.toNat < 2
    ∧ (2 ≤ ({ State.reset with msgLen := 2 } : State).msgLen.toNat
        ∧ ¬ Written { State.reset with msgLen := 2 } .payload 1 1)
    ∧ (2 ≤ (payloadState [0x00, 0x80]).msgLen.toNat ∧ Written (payloadState [0x00, 0x80]) .payload 1 1) := by decide

/-- The clauses of the statements of DPT.INT16, DPT.UINT16 and DPT.FLOAT16, at MSG_LEN = 2 and 3. -/
theorem witness_DptTwoBytes :
    (payloadState [0x00, 0x0C]).msgLen.toNat < 3
    ∧ (3 ≤ ({ State.reset with msgLen := 3 } : State).msgLen.toNat
        ∧ ¬ Written { State.reset with msgLen := 3 } .payload 1 2)
    ∧ (3 ≤ ({ payloadState [0x00, 0x0C] with msgLen := 3 } : State).msgLen.toNat
        ∧ ¬ Written { payloadState [0x00, 0x0C] with msgLen := 3 } .payload 1 2)
    ∧ (3 ≤ (payloadState [0x00, 0x0C, 0x90]).msgLen.toNat ∧ Written (payloadState [0x00, 0x0C, 0x90]) .payload 1 2
        ∧ (payloadState [0x00, 0x0C, 0x90]).params.dpt9Rounding = .exact
        ∧ Written (underFaithful (payloadState [0x00, 0x0C, 0x90])) .payload 1 2
        ∧ (underFaithful (payloadState [0x00, 0x0C, 0x90])).params.dpt9Rounding = .faithful) := by decide

/-- The clauses of the statements of DPT.INT32, DPT.UINT32 and DPT.FLOAT32, at MSG_LEN = 4 and 5, the first and the last
value byte unwritten. -/
theorem witness_DptFourBytes :
    (payloadState [0x00, 0x42, 0x28, 0x00]).msgLen.toNat < 5
    ∧ (5 ≤ ({ State.reset with msgLen := 5 } : State).msgLen.toNat
        ∧ ¬ Written { State.reset with msgLen := 5 } .payload 1 4)
    ∧ ¬ Written { payloadState [0x00, 0x42, 0x28, 0x00] with msgLen := 5 } .payload 1 4
    ∧ (5 ≤ (payloadState [0x00, 0x42, 0x28, 0x00, 0x00]).msgLen.toNat
        ∧ Written (payloadState [0x00, 0x42, 0x28, 0x00, 0x00]) .payload 1 4) := by decide

theorem witness_DptCommandsFailShortAndElseComplete :
    dptNeed .dptInt32 = some 5 ∧ (payloadState [0x00]).msgLen.toNat < 5
    ∧ (5 ≤ ({ payloadState [0x00, 0x42, 0x28, 0x00] with msgLen := 5 } : State).msgLen.toNat
        ∧ Written { payloadState [0x00, 0x42, 0x28, 0x00] with msgLen := 5 } .payload 1 (4 - 1)
        ∧ memGet ({ payloadState [0x00, 0x42, 0x28, 0x00] with msgLen := 5 } : State).payload 4 = none)
    ∧ 5 ≤ (payloadState [0x00, 0x42, 0x28, 0x00, 0x00]).msgLen.toNat
    ∧ Written (payloadState [0x00, 0x42, 0x28, 0x00, 0x00]) .payload 1 (5 - 1) := by decide

theorem witness_DptCommandsFrame :
    dptNeed .dptFloat16 = some 3 ∧ (∃ t, exec .dptFloat16 (payloadState [0x00, 0x0C, 0x1A]) = .next t)
    ∧ (payloadState [0x00, 0x0C, 0x1A]).params.dpt9Rounding = .exact :=
  ⟨rfl, (ends_next (p := fun _ => true) (by decide)).imp fun _ h => h.1, rfl⟩

/-- Two states that differ in P[0], MSG_CT and CMD. -/
theorem witness_DptDependsOnItsBytesOnly :
    dptNeed .dptBool = some 2 ∧ (payloadState [0x3F, 0x01]).msgLen = (payloadState [0x00, 0x01]).msgLen
    ∧ (payloadState [0x3F, 0x01]).params = (payloadState [0x00, 0x01]).params
    ∧ (payloadState [0x3F, 0x01]).draws = (payloadState [0x00, 0x01]).draws
    ∧ ∀ k, 1 ≤ k → k < 2 → memGet (payloadState [0x3F, 0x01]).payload k = memGet (payloadState [0x00, 0x01]).payload k := by
  refine ⟨rfl, rfl, rfl, rfl, fun k h1 h2 => ?_⟩
  obtain rfl : k = 1 := by omega
  rfl

/-- The greatest finite pattern, and the least. -/
theorem witness_Float16ExactIsNearestTiesToEven : f32Finite 0x7F7FFFFF ∧ f32Finite 0xFF7FFFFF := by
  unfold f32Finite
  decide

theorem witness_Float16FaithfulIsANeighbour : f32Finite 0x3D4CCCCC ∧ f32Finite 0x80000000 := by
  unfold f32Finite
  decide

/-! ### DECODE -/

theorem witness_DecodeDiscardsShortDatagrams :
    (datagramState (refB.take 5)).rxlen.toNat < 6
    ∧ 6 ≤ (datagramState (refB.take 6)).rxlen.toNat ∧ (datagramState (refB.take 7)).rxlen.toNat < 8
    ∧ Written (datagramState (refB.take 6)) .rx 0 4 ∧ (datagramState (refB.take 6)).params.hdrCheckMode = .any
    ∧ (datagramState (refB.take 6)).rxAt 0 = 0x06 ∧ (datagramState (refB.take 6)).rxAt 1 = 0x10
    ∧ (datagramState (refB.take 6)).rxService = (datagramState (refB.take 6)).params.svcRoutingInd.toNat
    ∧ (underAll (datagramState (0x07 :: (refB.drop 1).take 6))).params.hdrCheckMode = .all
    ∧ (underAll (datagramState (0x07 :: (refB.drop 1).take 6))).rxAt 1 = 0x10 := by decide

/-- V-DEC-H1, H2 and H3. -/
theorem witness_AnyHeaderMismatchDiscards :
    (datagramState refB).params.hdrCheckMode = .any ∧ 6 ≤ (datagramState refB).rxlen.toNat
    ∧ Written (datagramState (0x07 :: refB.drop 1)) .rx 0 4 ∧ (datagramState (0x07 :: refB.drop 1)).rxAt 0 ≠ 0x06
    ∧ Written (datagramState (0x06 :: 0x11 :: refB.drop 2)) .rx 0 4
    ∧ (datagramState (0x06 :: 0x11 :: refB.drop 2)).rxAt 0 = 0x06 ∧ (datagramState (0x06 :: 0x11 :: refB.drop 2)).rxAt 1 ≠ 0x10
    ∧ Written (datagramState (0x06 :: 0x10 :: 0x05 :: 0x31 :: refB.drop 4)) .rx 0 4
    ∧ (datagramState (0x06 :: 0x10 :: 0x05 :: 0x31 :: refB.drop 4)).rxAt 0 = 0x06
    ∧ (datagramState (0x06 :: 0x10 :: 0x05 :: 0x31 :: refB.drop 4)).rxAt 1 = 0x10
    ∧ (datagramState (0x06 :: 0x10 :: 0x05 :: 0x31 :: refB.drop 4)).rxService ≠ 0x0530 := by decide

/-- V-DEC-H4 and V-DEC-H5 under ALL. -/
theorem witness_AllModeDiscardsOnlyTripleMismatch :
    (underAll (datagramState (0x07 :: 0x11 :: 0x05 :: 0x31 :: refB.drop 4))).params.hdrCheckMode = .all
    ∧ 6 ≤ (underAll (datagramState (0x07 :: 0x11 :: 0x05 :: 0x31 :: refB.drop 4))).rxlen.toNat
    ∧ Written (underAll (datagramState (0x07 :: 0x11 :: 0x05 :: 0x31 :: refB.drop 4))) .rx 0 4
    ∧ (underAll (datagramState (0x07 :: 0x11 :: 0x05 :: 0x31 :: refB.drop 4))).rxAt 0 ≠ 0x06
    ∧ (underAll (datagramState (0x07 :: 0x11 :: 0x05 :: 0x31 :: refB.drop 4))).rxAt 1 ≠ 0x10
    ∧ (underAll (datagramState (0x07 :: 0x11 :: 0x05 :: 0x31 :: refB.drop 4))).rxService ≠ 0x0530
    ∧ Written (underAll (datagramState (0x07 :: 0x11 :: refB.drop 2))) .rx 0 4
    ∧ (underAll (datagramState (0x07 :: 0x11 :: refB.drop 2))).rxService = 0x0530
    ∧ (underAll (datagramState ((0x07 :: 0x11 :: refB.drop 2).take 7))).rxlen.toNat < 8
    ∧ Written (underAll (datagramState ((0x07 :: 0x11 :: refB.drop 2).take 7))) .rx 0 4
    ∧ (underAll (datagramState ((0x07 :: 0x11 :: refB.drop 2).take 7))).rxService = 0x0530
    ∧ ends (exec .decode (underAll (datagramState (0x07 :: 0x11 :: refB.drop 2)))) (fun t => t.result == .delivered) = true := by
  decide

/-- V-DEC-S1, T0, H1, H2, H3, H4, M1, T4, G1, Z1, X1, T3: each code of R18's discard class is some datagram's first failure. The
message-code, DAT and data_len discards come with every later byte unwritten. -/
theorem witness_DecodeReportsTheFirstFailingCheck :
    ((datagramState []).firstUnwrittenRead = none ∧ (datagramState []).firstFailure = some .discShortHeader)
    ∧ (datagramState (refB.take 6)).firstFailure = some .discTruncated
    ∧ (datagramState (0x07 :: refB.drop 1)).firstFailure = some .discHdrLen
    ∧ (datagramState (0x06 :: 0x11 :: refB.drop 2)).firstFailure = some .discHdrVersion
    ∧ (datagramState (0x06 :: 0x10 :: 0x05 :: 0x31 :: refB.drop 4)).firstFailure = some .discHdrService
    ∧ (underAll (datagramState (0x07 :: 0x11 :: 0x05 :: 0x31 :: refB.drop 4))).firstFailure = some .discHdrAll
    ∧ (datagramState (refB.take 6 ++ 0x11 :: refB.drop 7)).firstFailure = some .discMsgcode
    ∧ (datagramState (refB.take 15)).firstFailure = some .discTruncated
    ∧ (datagramState (refB.take 9 ++ 0x60 :: refB.drop 10)).firstFailure = some .discNotGroup
    ∧ (datagramState (refB.take 14 ++ 0x00 :: refB.drop 15)).firstFailure = some .discDlenZero
    ∧ (datagramState (refB.take 14 ++ 0xE7 :: refB.drop 15)).firstFailure = some .discDlenMax
    ∧ (let s : State := { datagramState (refB.take 6 ++ [0x11]) with rxlen := 19 }
       s.firstUnwrittenRead = none ∧ s.firstFailure = some .discMsgcode)
    ∧ (let s : State := { datagramState (refB.take 9 ++ [0x60]) with rxlen := 19 }
       s.firstUnwrittenRead = none ∧ s.firstFailure = some .discNotGroup)
    ∧ (let s : State := { datagramState (refB.take 14 ++ [0x00]) with rxlen := 19 }
       s.firstUnwrittenRead = none ∧ s.firstFailure = some .discDlenZero)
    ∧ (let s : State := { datagramState (refB.take 14 ++ [0xE7]) with rxlen := 19 }
       s.firstUnwrittenRead = none ∧ s.firstFailure = some .discDlenMax)
    ∧ ((datagramState (refB.take 14 ++ 0x04 :: refB.drop 15)).firstUnwrittenRead = none
        ∧ (datagramState (refB.take 14 ++ 0x04 :: refB.drop 15)).firstFailure = some .discTruncated) := by decide

/-- V-DEC-1, V-DEC-U2 (RXLEN = 256 with B alone written), and V-DEC-S1 for the clause of a DECODE that does not
deliver. -/
theorem witness_DecodeDeliversAnAcceptedDatagram :
    ends (exec .decode (datagramState [])) (fun t => t.result != .delivered) = true
    ∧ ends (exec .decode (datagramState refB)) (fun t => t.result == .delivered) = true
    ∧ ({ datagramState refB with rxlen := 0x0100 } : State).firstUnwrittenRead = none
    ∧ ({ datagramState refB with rxlen := 0x0100 } : State).accepts := by
  refine ⟨by decide, by decide, by decide, ?_⟩
  unfold State.accepts
  decide

/-- An accepted datagram and one that is not. -/
theorem witness_AcceptanceDoesNotDependOnTheOrder :
    (datagramState refB).firstUnwrittenRead = none ∧ (datagramState refB).accepts
    ∧ (datagramState (refB.take 18)).firstUnwrittenRead = none ∧ ¬ (datagramState (refB.take 18)).accepts := by
  refine ⟨by decide, ?_, by decide, ?_⟩ <;> unfold State.accepts <;> decide

theorem witness_DeliveredDatagramsPassedEveryCheck :
    (datagramState refB).params.hdrCheckMode = .any
    ∧ ends (exec .decode (datagramState refB)) (fun t => t.result == .delivered) = true := by decide

/-- A discard and a delivery. -/
theorem witness_DecodeFrame :
    ends (exec .decode (datagramState (refB.take 18))) (fun t => t.result != .delivered) = true
    ∧ ends (exec .decode (datagramState refB)) (fun t => t.result == .delivered && t.msgLen.toNat == 3) = true := by decide

/-- RXBUF with total_len and control_1 changed, for a DECODE that ends, and an empty RXBUF for one that faults. -/
theorem witness_DecodeIgnoresUnreadBytes :
    (∀ k, ¬ (datagramState refB).unreadByDecode k → memGet (memPut (memPut (datagramState refB).rx 4 0xFF) 8 0x00) k
        = memGet (datagramState refB).rx k)
    ∧ ends (exec .decode (datagramState refB)) (fun _ => true) = true
    ∧ (∀ k, ¬ ({ State.reset with rxlen := 6 } : State).unreadByDecode k → memGet [] k
        = memGet ({ State.reset with rxlen := 6 } : State).rx k)
    ∧ faults (exec .decode { State.reset with rxlen := 6 }) (.uninit .rx 0) = true := by
  refine ⟨fun k hk => ?_, by decide, fun k _ => rfl, by decide⟩
  simp only [State.unreadByDecode, not_or] at hk
  rw [memGet_memPut_other _ _ (by omega), memGet_memPut_other _ _ (by omega)]

/-- The bytes of B that DECODE reads, in the order of 42_decode R105; with any one of them unwritten, DECODE faults there,
under ANY and under ALL. -/
theorem witness_DecodeFaultsAtEachUnwrittenRead :
    (datagramState refB).decodeReads = [0, 1, 2, 3, 6, 7, 9, 14, 15, 16, 10, 11, 12, 13, 17, 18]
    ∧ (datagramState refB).decodeReads.all (fun k =>
        (withHole k (datagramState refB)).firstUnwrittenRead == some k
        && faults (exec .decode (withHole k (datagramState refB))) (.uninit .rx k)
        && faults (exec .decode (underAll (withHole k (datagramState refB)))) (.uninit .rx k)) = true := by decide

/-- V-DEC-U1: B[0..9] written, RXLEN = 19. -/
theorem witness_DecodeFaultsOnlyOnUnwrittenBytes :
    let s : State := { datagramState (refB.take 10) with rxlen := 19 }
    faults (exec .decode s) (.uninit .rx 14) = true
    ∧ s.params.hdrCheckMode = .any ∧ 16 + s.rxN ≤ s.rxlen.toNat ∧ Written s .rx 0 8 ∧ s.rxAt 0 = 0x06 ∧ s.rxAt 1 = 0x10
    ∧ s.rxService = s.params.svcRoutingInd.toNat ∧ s.rxAt 6 = 0x29 ∧ memGet s.rx (9 + s.rxN) = some (s.rxAt (9 + s.rxN))
    ∧ dat s.params.ctrlLayout (s.rxAt (9 + s.rxN)) = true ∧ memGet s.rx (14 + s.rxN) = none := by decide

/-! ### ENCODE -/

/-- MSG_LEN = 1 and MSG_LEN = MAX_PAYLOAD = 3. -/
theorem witness_EncodeBuildsTheDatagram :
    (1 ≤ (payloadState [0x3F]).msgLen.toNat ∧ (payloadState [0x3F]).msgLen.toNat ≤ (payloadState [0x3F]).params.maxPayload.toNat
      ∧ Written (payloadState [0x3F]) .payload 0 (payloadState [0x3F]).msgLen.toNat)
    ∧ (let s : State := { messageB with params := { Params.default with maxPayload := 3 } }
       1 ≤ s.msgLen.toNat ∧ s.msgLen.toNat ≤ s.params.maxPayload.toNat ∧ Written s .payload 0 s.msgLen.toNat) := by decide

/-- V-ENC-5 and V-ENC-6b. -/
theorem witness_EncodeRejectsBadLength :
    State.reset.msgLen.toNat = 0
    ∧ ({ State.reset with msgLen := 231 } : State).params.maxPayload.toNat < ({ State.reset with msgLen := 231 } : State).msgLen.toNat := by
  decide

/-- V-ENC-12: MSG_LEN = 3 with P[2] never written. -/
theorem witness_EncodeFaultsAtTheFirstUnwrittenByte :
    let s : State := { payloadState [0x00, 0x0C] with msgLen := 3 }
    1 ≤ s.msgLen.toNat ∧ s.msgLen.toNat ≤ s.params.maxPayload.toNat ∧ 2 < s.msgLen.toNat ∧ Written s .payload 0 2
    ∧ memGet s.payload 2 = none := by decide

/-- An ENCODE that succeeds and one that fails. -/
theorem witness_EncodeFrame :
    ends (exec .encode messageB) (fun t => t.result == .encoded) = true
    ∧ ends (exec .encode State.reset) (fun t => t.result != .encoded) = true := by decide

/-- W1: the message of B, and a state just after reset whose RXBUF holds the datagram it encodes to, B. -/
theorem witness_EncodeThenDecodeDeliversTheMessage :
    1 ≤ messageB.msgLen.toNat ∧ messageB.msgLen.toNat ≤ messageB.params.maxPayload.toNat
    ∧ Written messageB .payload 0 messageB.msgLen.toNat
    ∧ (datagramState refB).params = messageB.params
    ∧ ends (exec .encode messageB) (fun t => t.result == .encoded && (datagramState refB).rxlen == t.txlen
        && (List.range t.txlen.toNat).all (fun k => memGet (datagramState refB).rx k == memGet t.tx k)) = true := by decide

/-! ### The whole machine -/

theorem witness_EveryCommandEndsInOneOutcome :
    ends (exec .decode (datagramState refB)) (fun _ => true) = true ∧ ends (exec .encode messageB) (fun _ => true) = true
    ∧ dptNeed .dptBool ≠ none ∧ ends (exec .dptBool (payloadState [0x00, 0x01])) (fun _ => true) = true := by decide

theorem witness_StepKeepsTheInvariant :
    (pendingState 0x10 []).inv ∧ ends (step (pendingState 0x10 [])) (fun _ => true) = true :=
  ⟨⟨by decide, by decide, fun _ => rfl⟩, by decide⟩

/-- The ENCODE of B's message, from TXLEN = 0. -/
theorem witness_StepKeepsTheTransmitFrame :
    ({ messageB with pending := some 0x02 } : State).txFrame
    ∧ ends (step { messageB with pending := some 0x02 }) (fun t => t.txlen == 19) = true := ⟨.inl rfl, by decide⟩

/-- A step that delivers, a host read, and reset. -/
theorem witness_DeliverCountCountsDeliveries :
    ends (exec .decode (datagramState refB)) (fun t => t.result == .delivered) = true
    ∧ ends (exec .decode (datagramState [])) (fun t => t.result != .delivered) = true
    ∧ ends (step { datagramState refB with pending := some 0x01 }) (fun t => t.deliverCnt == 1 && t.trace.length == 1) = true
    ∧ ends (step (State.reset.withAgenda [.host (.rd 0x0014 0x4B)])) (fun t => t.trace == [.read 0x0014 0x4B]) = true
    ∧ ends (step (pendingState 0x01 [.reset])) (fun t => t.deliverCnt == 0) = true := by decide

theorem witness_NoStepChangesTheBuild :
    ends (step (underAll (pendingState 0x01 [.reset]))) (fun t => t.params.hdrCheckMode == .all) = true := by decide

theorem witness_OnlyTheirCommandsWriteResults :
    ends (step { messageB with pending := some 0x02 }) (fun t => t.tx != []) = true
    ∧ ends (step { payloadState [0x00, 0x01] with pending := some 0x10 }) (fun t => t.dptResult == 1) = true
    ∧ ∀ rest, ({ messageB with pending := some 0x02 } : State).agenda ≠ .reset :: rest :=
  ⟨by decide, by decide, fun _ => by simp [messageB, payloadState, State.reset]⟩

theorem witness_CarefulHostNeverMeetsTheHazard :
    programOk (issue 0x10) = true
    ∧ (State.reset.withAgenda ((issue 0x10).map .host)).hostCareful
    ∧ ends (step (State.reset.withAgenda ((issue 0x10).map .host))) (fun t => t.busy) = true :=
  ⟨by decide, by unfold State.hostCareful; decide, by decide⟩

/-- 70_reset_and_hazards R164: final with no turn left, and with only reset and idle engine turns left; not with a host access
or a WAIT left, nor while BUSY = 1. -/
theorem witness_EveryRunEndsFinalOrFaulted :
    State.reset.isFinal ∧ (State.reset.withAgenda [.engine, .reset]).isFinal
    ∧ ¬ (State.reset.withAgenda [.reset, .host (.rd 0x0001 0x00)]).isFinal
    ∧ ¬ (State.reset.withAgenda [.host .wait]).isFinal ∧ ¬ (pendingState 0x01 [.reset]).isFinal := by
  unfold State.isFinal
  decide

end Sys2Proof.Tests
end

section
/-! PROOFS. The statements of 10_state: RESULT codes and STATUS, IDENT and CFG, the CMD latch, what the DPT commands and
ENCODE leave unchanged, and the delivery counter. -/

namespace Sys2Proof.Machine

/-! ## RESULT codes (10_state R18, R19) -/

/-- "The class of a code is its value's bits 6..4": of every 7-bit code, its value divided by 16. -/
theorem classBits_eq_div (c : BitVec 7) : classBits c = BitVec.ofNat 3 (c.toNat / 16) := by
  rw [classBits, BitVec.extractLsb', Nat.shiftRight_eq_div_pow]

/-- The rows of R18's table, in its order. -/
def ResultCode.rows : List ResultCode :=
  [.none, .delivered, .encoded, .dptOk, .discShortHeader, .discHdrLen, .discHdrVersion, .discHdrService, .discHdrAll,
    .discTruncated, .discMsgcode, .discNotGroup, .discDlenZero, .discDlenMax, .errEncLen, .errDptLen, .errIllegalCmd]

/-- A code looked up in R18's table finds the name it belongs to. -/
theorem ResultCode.find_code (r : ResultCode) : rows.find? (fun q => q.code == r.code) = some r := by
  cases r <;> rfl

/-- No two RESULT names share a code. -/
theorem ResultCode.code_injective {r q : ResultCode} (h : r.code = q.code) : r = q := by
  have hr := r.find_code
  rw [h, q.find_code] at hr
  exact (Option.some.inj hr).symm

/-- The discard class is R18's range 0x10 to 0x19. -/
theorem ResultCode.class_eq_discard_iff (r : ResultCode) :
    classOfBits (classBits r.code) = some .discard ↔ 0x10 ≤ r.code.toNat ∧ r.code.toNat ≤ 0x19 := by
  cases r <;> decide

/-- Settles O6: the table and the class patterns by evaluation, a code's class bits for every 7-bit value at once. -/
theorem resultClassIsBitsSixToFour : Obligations.ResultClassIsBitsSixToFour := by
  unfold Obligations.ResultClassIsBitsSixToFour
  refine ⟨by decide, fun r => ?_, fun r => classBits_eq_div r.code, rfl, rfl, rfl, rfl, rfl, fun r => ?_,
    fun _ _ => ResultCode.code_injective, ResultCode.class_eq_discard_iff⟩
  · cases r <;> decide
  · cases r <;> rfl

/-! ## Host accesses that meet no hazard -/

/-- A read that is no hazard returns the byte its place holds. -/
theorem hostRead_of_readPlace {a : Addr} {s : State} {v : Byte} (hs : s.busy = false ∨ a = 0x0001)
    (hv : readPlace s (placeOf a) = .ok v) : hostRead a s = .next (emit (.read a v) s) := by
  rcases hostRead_cases a s with ⟨hb, ha, -⟩ | ⟨-, ⟨v', hv', h⟩ | ⟨st, k, he, -⟩⟩
  · exact absurd (hs.resolve_left (by simp [hb])) ha
  · rw [hv, Except.ok.injEq] at hv'
    rw [h, hv']
  · simp [hv] at he

/-- A write while BUSY = 0 is performed. -/
theorem hostWrite_of_idle {s : State} (h : s.pending = none) (a : Addr) (v : Byte) :
    hostWrite a v s = .next (writePlace v s (placeOf a)) := by
  simp [hostWrite, busy_eq_false.mpr h]

/-- A write while BUSY = 1 is the hazard of R156. -/
theorem hostWrite_of_busy {s : State} (h : s.busy = true) (a : Addr) (v : Byte) : hostWrite a v s = .fault .hazardBusy := by
  simp [hostWrite, h]

/-! ## STATUS (10_state R17) -/

/-- BUSY is bit 7 of STATUS and RESULT the other seven. -/
theorem status_toNat (s : State) :
    s.status.toNat = (if s.pending.isSome then 128 else 0) + s.result.code.toNat := by
  rw [State.status, append_toNat, State.busy]
  cases s.pending.isSome <;> rfl

/-- While BUSY = 1 the invariant's RESULT = NONE leaves bit 7 alone. -/
theorem status_of_busy {s : State} (hs : s.inv) (hp : s.pending.isSome = true) : s.status = 0x80 := by
  obtain ⟨-, -, hres⟩ := hs
  have hnone : s.result = .none := hres hp
  apply BitVec.eq_of_toNat_eq
  rw [status_toNat, hp, hnone]
  rfl

/-- Settles O11: a read of STATUS is never a hazard, and no write changes what is there. -/
theorem statusByteShowsBusyAndResult : Obligations.StatusByteShowsBusyAndResult := by
  unfold Obligations.StatusByteShowsBusyAndResult
  refine ⟨by decide, fun s => ⟨status_toNat s, status_of_busy, ?_, fun v hp => ?_⟩⟩
  · exact hostRead_of_readPlace (.inr rfl) rfl
  · exact hostWrite_of_idle hp 0x0001 v

/-! ## IDENT and CFG (10_state R33, R34) -/

/-- CFG0's four mode bits. -/
theorem cfgByte0_bits (p : Params) :
    (cfgByte0 p).getLsbD 0 = decide (p.hdrCheckMode = .all)
    ∧ (cfgByte0 p).getLsbD 1 = decide (p.ctrlLayout = .docLiteral)
    ∧ (cfgByte0 p).getLsbD 2 = decide (p.dpt9Mantissa = .signMag11)
    ∧ (cfgByte0 p).getLsbD 3 = decide (p.dpt9Rounding = .faithful) := by
  simp only [cfgByte0, BitVec.getLsbD_append]
  simp

/-- CFG0's bits 7..4 are zero. -/
theorem cfgByte0_lt (p : Params) : (cfgByte0 p).toNat < 16 := by
  have bit (b : Bool) : (BitVec.ofBool b).toNat < 2 := (BitVec.ofBool b).isLt
  have h0 := bit (p.hdrCheckMode = .all)
  have h1 := bit (p.ctrlLayout = .docLiteral)
  have h2 := bit (p.dpt9Mantissa = .signMag11)
  have h3 := bit (p.dpt9Rounding = .faithful)
  simp only [cfgByte0, append_toNat, BitVec.ofNat_eq_ofNat, BitVec.toNat_ofNat]
  omega

/-- The high byte of a 16-bit value as a quotient. -/
theorem hi8_eq_div (v : BitVec 16) : hi8 v = BitVec.ofNat 8 (v.toNat / 256) := by
  rw [hi8, BitVec.extractLsb', Nat.shiftRight_eq_div_pow]

/-- The low byte of a 16-bit value as a remainder. -/
theorem lo8_eq_mod (v : BitVec 16) : lo8 v = BitVec.ofNat 8 (v.toNat % 256) := by
  apply BitVec.eq_of_toNat_eq
  rw [lo8_toNat, BitVec.toNat_ofNat]
  omega

/-- CFG4: a 6-bit value under two zero bits is that value. -/
theorem zero_append_six (t : BitVec 6) : (0 : BitVec 2) ++ t = BitVec.ofNat 8 t.toNat := by
  apply BitVec.eq_of_toNat_eq
  have := t.isLt
  simp only [append_toNat, BitVec.ofNat_eq_ofNat, BitVec.toNat_ofNat]
  omega

/-- Settles O20: each address names its constant, and CFG0, CFG4, CFG5 and CFG6 are their parameters' values. -/
theorem identAndCfgBytes : Obligations.IdentAndCfgBytes := by
  unfold Obligations.IdentAndCfgBytes
  refine ⟨by decide, fun s => ⟨rfl, rfl, ⟨cfgByte0 s.params, rfl, ?_⟩, rfl, rfl, rfl, ?_, ?_, ?_, rfl⟩⟩
  · obtain ⟨h0, h1, h2, h3⟩ := cfgByte0_bits s.params
    exact ⟨h0, h1, h2, h3, cfgByte0_lt s.params⟩
  · exact congrArg Except.ok (zero_append_six s.params.encTpci)
  · exact congrArg Except.ok (hi8_eq_div s.params.svcRoutingInd)
  · exact congrArg Except.ok (lo8_eq_mod s.params.svcRoutingInd)

/-! ## The CMD latch (10_state R16) -/

/-- A host write's turn is that write of the state with the turn taken. -/
theorem step_of_write {s : State} {a : Addr} {v : Byte} {rest : List Turn} (h : s.agenda = .host (.wr a v) :: rest) :
    step s = hostWrite a v (s.withAgenda rest) := by
  simp [step, h]

/-- The engine's step with a command latched is that command's. -/
theorem engineStep_of_decode {s : State} {c : Byte} {i : Instr} (hp : s.pending = some c) (hd : decode c = .ok i) :
    engineStep s = exec i s := by
  simp [engineStep, hp, hd]

/-- The engine's step leaves BUSY = 0 and CMD as it was, whatever command it ran. -/
theorem engineStep_idle_cmd {s t : State} (h : engineStep s = .next t) : t.pending = none ∧ t.cmd = s.cmd := by
  rcases engineStep_cases s with ⟨hp, e⟩ | ⟨c, i, -, -, e⟩ | ⟨c, d, -, -, e⟩
  · rw [e, Host.Outcome.next.injEq] at h
    subst h
    exact ⟨hp, rfl⟩
  · rw [e] at h
    rcases exec_cases i s with ⟨u, hu, hp, -, -, hc, -, -⟩ | ⟨st, k, -, hf⟩
    · rw [hu, Host.Outcome.next.injEq] at h
      subst h
      exact ⟨hp, hc⟩
    · simp [hf] at h
  · rw [e, Host.Outcome.next.injEq] at h
    subst h
    exact ⟨rfl, rfl⟩

/-- Settles O10: the write is `latchCommand`, and the engine's step keeps CMD. -/
theorem cmdWriteLatchesTheCommand : Obligations.CmdWriteLatchesTheCommand := by
  unfold Obligations.CmdWriteLatchesTheCommand
  refine ⟨rfl, fun s v rest hp ha => ⟨latchCommand v (s.withAgenda rest), ?_, rfl, latchCommand_status _ _, ?_, ?_, ?_⟩⟩
  · rw [step_of_write ha, hostWrite_of_idle (s := s.withAgenda rest) hp, placeOf_eq_cmd.mpr rfl, writePlace]
  · exact fun i => engineStep_of_decode rfl
  · intro u hu
    obtain ⟨hidle, hcmd⟩ := engineStep_idle_cmd hu
    have hb : u.busy = false := busy_eq_false.mpr hidle
    have hv : readPlace u (placeOf 0x0000) = .ok v := congrArg Except.ok hcmd
    exact ⟨hb, hcmd, hostRead_of_readPlace (.inl hb) hv⟩
  · exact hostWrite_of_busy rfl 0x0000

/-! ## What a command leaves unchanged (10_state R37) -/

/-- A byte reads as before where its store holds what it held before. -/
theorem readByte_congr {s t : State} {st : Store} {k : Nat} (h : memGet (t.store st) k = memGet (s.store st) k) :
    readByte t st k = readByte s st k := by
  simp only [readByte, h]

/-- DPT.FLOAT16 takes no draw under EXACT. -/
theorem drawsAfter_of_exact {s : State} (h : s.params.dpt9Rounding = .exact) : drawsAfter s = s.draws := by
  simp [drawsAfter, h]

/-- Settles O32: a DPT command that ends has failed its length check or committed one of the two writes of a value. -/
theorem dptCommandsFrame : Obligations.DptCommandsFrame := by
  unfold Obligations.DptCommandsFrame
  intro i n s t hi h
  rcases execDpt_cases hi s with ⟨-, e⟩ | ⟨-, -, v, e⟩ | ⟨-, hf, v, e⟩ | ⟨-, k, -, -, -, e⟩ <;>
    simp only [e, Host.Outcome.next.injEq, reduceCtorEq] at h <;> subst h
  · exact ⟨rfl, fun st _ => readByte_congr (by cases st <;> rfl), fun _ => rfl⟩
  · exact ⟨rfl, fun st _ => readByte_congr (by cases st <;> rfl), fun _ => rfl⟩
  · refine ⟨rfl, fun st _ => readByte_congr (by cases st <;> rfl), fun hd => ?_⟩
    exact drawsAfter_of_exact (hd.resolve_left fun hne => hne hf)

/-- Bytes written below an offset leave the bytes from there on. -/
theorem memGet_memPutAll_of_le {bytes : List Byte} {m : Memory} {off k : Nat} (h : off + bytes.length ≤ k) :
    memGet (memPutAll m off bytes) k = memGet m k := by
  rw [memGet_memPutAll, if_neg (by omega)]

/-- The datagram ENCODE builds has 16 + MSG_LEN bytes. -/
theorem datagram_length {s : State} {bytes : List Byte} (h : readBytes s .payload 0 s.msgLen.toNat = .ok bytes) :
    (encodeHeader s ++ encodeData s.msgCt bytes).length = 16 + s.msgLen.toNat := by
  rw [List.length_append, encodeHeader_length, encodeData_length, (readBytes_ok.mp h).1]

/-- Settles O51: ENCODE that ends has cleared TXLEN alone, or written a datagram of 16 + MSG_LEN bytes from TX[0]. -/
theorem encodeFrame : Obligations.EncodeFrame := by
  unfold Obligations.EncodeFrame
  intro s t h
  rcases execEncode_cases s with ⟨-, e⟩ | ⟨-, bytes, hr, e⟩ | ⟨-, k, -, -, e⟩ <;>
    simp only [exec, e, Host.Outcome.next.injEq, reduceCtorEq] at h
  · subst h
    exact ⟨rfl, fun _ => readByte_congr rfl, fun _ => readByte_congr rfl, fun _ _ => readByte_congr rfl⟩
  · have hlen := datagram_length hr
    generalize encodeHeader s ++ encodeData s.msgCt bytes = datagram at h hlen
    subst h
    refine ⟨rfl, fun _ => readByte_congr rfl, fun _ => readByte_congr rfl, fun k hk => readByte_congr ?_⟩
    have hk : 16 + s.msgLen.toNat ≤ k := hk.resolve_left fun hne => hne rfl
    exact memGet_memPutAll_of_le (by omega)

/-! ## Deliveries (10_state R30, 42_decode R117) -/

/-- From `s` to `t` no message was delivered and DELIVER_CNT stayed. -/
def DeliversNothing (s t : State) : Prop := t.deliverCnt = s.deliverCnt ∧ t.trace = s.trace

/-- From `s` to `t` one message was delivered, and DELIVER_CNT and RESULT say so. -/
def DeliversOnce (s t : State) : Prop :=
  t.result = .delivered ∧ t.deliverCnt.toNat = (s.deliverCnt.toNat + 1) % 2 ^ 16 ∧ ∃ m, t.trace = .deliver m :: s.trace

/-- The commit of an accepting DECODE delivers its message. -/
theorem deliversOnce_acceptMessage (m : Message) (s : State) : DeliversOnce s (acceptMessage m s) :=
  ⟨rfl, BitVec.toNat_add s.deliverCnt 1, m, rfl⟩

/-- A discard's code is not DELIVERED. -/
theorem ne_delivered_of_isDiscard {r : ResultCode} (h : r.isDiscard = true) : r ≠ .delivered := by
  rintro rfl
  exact absurd h (by decide)

/-- DECODE delivers once with RESULT = DELIVERED, or ends with another RESULT and delivers nothing. -/
theorem execDecode_delivers {s t : State} (h : execDecode s = .next t) :
    DeliversOnce s t ∨ (t.result ≠ .delivered ∧ DeliversNothing s t) := by
  rcases execDecode_cases s with ⟨n, l, m, -, -, e⟩ | ⟨r, hr, e⟩ | ⟨k, -, -, -, e⟩ <;>
    simp only [e, Host.Outcome.next.injEq, reduceCtorEq] at h <;> subst h
  · exact .inl (deliversOnce_acceptMessage m s)
  · exact .inr ⟨ne_delivered_of_isDiscard hr, rfl, rfl⟩

/-- No command but DECODE delivers. -/
theorem exec_delivers_nothing {i : Instr} {s t : State} (hi : i ≠ .decode) (h : exec i s = .next t) :
    DeliversNothing s t := by
  cases hn : dptNeed i with
  | some n =>
    rcases execDpt_cases hn s with ⟨-, e⟩ | ⟨-, -, v, e⟩ | ⟨-, -, v, e⟩ | ⟨-, k, -, -, -, e⟩ <;>
      simp only [e, Host.Outcome.next.injEq, reduceCtorEq] at h <;> subst h <;> exact ⟨rfl, rfl⟩
  | none =>
    obtain rfl : i = .encode := by cases i <;> simp [dptNeed] at hn hi ⊢
    rcases execEncode_cases s with ⟨-, e⟩ | ⟨-, bytes, -, e⟩ | ⟨-, k, -, -, e⟩ <;>
      simp only [exec, e, Host.Outcome.next.injEq, reduceCtorEq] at h <;> subst h <;> exact ⟨rfl, rfl⟩

/-- A byte that selects a command is that command's (30_encoding R65). -/
theorem encode_of_decode {c : Byte} {i : Instr} : decode c = .ok i → encode i = c := by
  unfold decode
  iterate 11
    refine ite_induction (fun d => d = Except.ok i → encode i = c) (fun hc h => ?_) fun _ => ?_
    · cases h
      exact hc.symm
  exact nofun

/-- The engine's step delivers nothing, or runs DECODE and delivers once. -/
theorem engineStep_delivers {s t : State} (h : engineStep s = .next t) :
    DeliversNothing s t ∨ (s.pending = some 0x01 ∧ DeliversOnce s t) := by
  rcases engineStep_cases s with ⟨-, e⟩ | ⟨c, i, hp, hd, e⟩ | ⟨c, d, -, -, e⟩
  · rw [e, Host.Outcome.next.injEq] at h
    subst h
    exact .inl ⟨rfl, rfl⟩
  · rw [e] at h
    by_cases hi : i = .decode
    · subst hi
      obtain rfl := encode_of_decode hd
      rcases execDecode_delivers h with once | ⟨-, nothing⟩
      · exact .inr ⟨hp, once⟩
      · exact .inl nothing
    · exact .inl (exec_delivers_nothing hi h)
  · rw [e, Host.Outcome.next.injEq] at h
    subst h
    exact .inl ⟨rfl, rfl⟩

/-- Everything a step does to DELIVER_CNT and the Deliver events: the engine's step delivers or not, a host read is
recorded, a host write and a WAIT leave both, and reset clears the count. -/
theorem step_delivers {s t : State} (h : step s = .next t) :
    DeliversNothing s t
    ∨ (t.deliverCnt = s.deliverCnt ∧ ∃ a v, t.trace = .read a v :: s.trace)
    ∨ (s.pending = some 0x01 ∧ DeliversOnce s t)
    ∨ ((∃ rest, s.agenda = .reset :: rest) ∧ t.deliverCnt = 0 ∧ t.trace = s.trace) := by
  rcases step_cases s with ⟨-, e⟩ | ⟨rest, -, e⟩ | ⟨rest, ha, e⟩ | ⟨a, x, rest, -, e⟩ | ⟨a, v, rest, -, e⟩ | ⟨rest, -, -, e⟩
    | ⟨rest, -, -, e⟩ <;> rw [e] at h
  · exact (engineStep_delivers h).imp_right fun once => .inr (.inl once)
  · exact (engineStep_delivers (s := s.withAgenda rest) h).imp_right fun once => .inr (.inl once)
  · rw [Host.Outcome.next.injEq] at h
    subst h
    exact .inr (.inr (.inr ⟨⟨rest, ha⟩, rfl, rfl⟩))
  · rcases hostRead_cases a (s.withAgenda rest) with ⟨-, -, r⟩ | ⟨-, ⟨v, -, r⟩ | ⟨st, k, -, r⟩⟩ <;>
      simp only [r, Host.Outcome.next.injEq, reduceCtorEq] at h
    subst h
    exact .inr (.inl ⟨rfl, a, v, rfl⟩)
  · rcases hostWrite_cases a v (s.withAgenda rest) with ⟨-, w⟩ | ⟨-, w⟩ <;>
      simp only [w, Host.Outcome.next.injEq, reduceCtorEq] at h
    subst h
    obtain ⟨-, -, htrace, -, -, -, hcnt, -⟩ := writePlace_frame v (s.withAgenda rest) (placeOf a)
    exact .inl ⟨hcnt, htrace⟩
  · exact (engineStep_delivers h).imp_right fun once => .inr (.inl once)
  · rw [Host.Outcome.next.injEq] at h
    subst h
    exact .inl ⟨rfl, rfl⟩

/-- Settles O56: DELIVER_CNT and the Deliver events advance together, in `exec` and in `step`. -/
theorem deliverCountCountsDeliveries : Obligations.DeliverCountCountsDeliveries := by
  unfold Obligations.DeliverCountCountsDeliveries
  refine ⟨rfl, fun s t h => ?_, fun s t h => ?_⟩
  · rcases execDecode_delivers h with ⟨hres, hcnt, -⟩ | ⟨hres, hcnt, -⟩
    · rw [if_pos hres, hcnt]
    · rw [if_neg hres, hcnt]
  · rcases step_delivers h with ⟨hcnt, htrace⟩ | ⟨hcnt, hread⟩ | ⟨hp, hres, hcnt, hev⟩ | hreset
    · exact .inl ⟨hcnt, .inl htrace⟩
    · exact .inl ⟨hcnt, .inr hread⟩
    · exact .inr (.inl ⟨hp, hres, hcnt, hev⟩)
    · exact .inr (.inr hreset)

end Sys2Proof.Machine
end

section
/-! PROOFS. The statements of 20_memory: unmapped and read-only addresses, and what a host access changes. -/

namespace Sys2Proof.Machine

/-! ## Reads and writes of places -/

/-- What a place holds does not depend on the record of events. -/
@[simp] theorem readPlace_emit (e : Event) (s : State) (p : Place) : readPlace (emit e s) p = readPlace s p := by
  cases p <;> rfl

/-- No write reaches a read-only address of 20_memory R44: the places that store a byte have other addresses. -/
theorem writePlace_of_readOnly {p : Place} {n : Nat} (hp : p.addr = some n) (hb : p.inBuffers)
    (hn : n = 0x0001 ∨ n = 0x0004 ∨ n = 0x0005 ∨ n = 0x000C ∨ n = 0x000D ∨ (0x0010 ≤ n ∧ n ≤ 0x0015)
      ∨ (0x0020 ≤ n ∧ n ≤ 0x0027) ∨ (0x0800 ≤ n ∧ n ≤ 0x09FF)) (v : Byte) (s : State) :
    writePlace v s p = s := by
  cases p with
  | cmd | rxlenHi | rxlenLo | msgCt | msgLen | msgSrcHi | msgSrcLo | msgDstHi | msgDstLo | payload k | rx k =>
    simp only [Place.addr, Place.inBuffers, Option.some.injEq] at hp hb
    omega
  | _ => rfl

/-- The high byte written twice is written once. -/
@[simp] theorem withHi_withHi (r : BitVec 16) (v : Byte) : withHi (withHi r v) v = withHi r v :=
  congrArg (v ++ ·) (lo8_withHi r v)

/-- The low byte written twice is written once. -/
@[simp] theorem withLo_withLo (r : BitVec 16) (v : Byte) : withLo (withLo r v) v = withLo r v :=
  congrArg (· ++ v) (hi8_withLo r v)

/-- The same byte written to a place twice is written once. -/
theorem writePlace_writePlace_same (v : Byte) (s : State) (p : Place) :
    writePlace v (writePlace v s p) p = writePlace v s p := by
  cases p with
  | rxlenHi | rxlenLo | msgSrcHi | msgSrcLo | msgDstHi | msgDstLo => simp [writePlace]
  | payload k | rx k => simp [writePlace, State.write, memPutAll]
  | _ => rfl

/-- A byte written to a store leaves its other bytes. -/
theorem readByte_write_other {st : Store} {j k : Nat} (h : j ≠ k) (v : Byte) (s : State) :
    readByte (s.write st k [v]) st j = readByte s st j := by
  apply readByte_congr
  cases st <;> exact memGet_memPut_other _ v h.symm

/-- A write to a place other than CMD leaves what every other place holds. Only the two halves of a 16-bit register, and
the bytes of one buffer, share the field written. -/
theorem readPlace_writePlace_other {p q : Place} (hp : p ≠ .cmd) (h : q ≠ p) (v : Byte) (s : State) :
    readPlace (writePlace v s p) q = readPlace s q := by
  cases p with
  | cmd => exact absurd rfl hp
  | rxlenHi | rxlenLo | msgCt | msgLen | msgSrcHi | msgSrcLo | msgDstHi | msgDstLo =>
    cases q with
    | rxlenHi | rxlenLo | msgCt | msgLen | msgSrcHi | msgSrcLo | msgDstHi | msgDstLo =>
      simp [writePlace, readPlace] at h ⊢
    | _ => rfl
  | payload k =>
    cases q with
    | payload j => exact readByte_write_other (st := .payload) (fun e => h (congrArg _ e)) v s
    | _ => rfl
  | rx k =>
    cases q with
    | rx j => exact readByte_write_other (st := .rx) (fun e => h (congrArg _ e)) v s
    | _ => rfl
  | _ => rfl

/-! ## Host accesses -/

/-- The same host read again returns the same byte (20_memory R47). -/
theorem hostRead_again {s t : State} {a : Addr} (h : hostRead a s = .next t) :
    ∃ v, t = emit (.read a v) s ∧ hostRead a t = .next (emit (.read a v) t) := by
  rcases hostRead_cases a s with ⟨-, -, e⟩ | ⟨hs, ⟨v, hv, e⟩ | ⟨st, k, -, e⟩⟩ <;>
    simp only [e, Host.Outcome.next.injEq, reduceCtorEq] at h
  subst h
  exact ⟨v, rfl, hostRead_of_readPlace hs ((readPlace_emit _ s _).trans hv)⟩

/-- A host write that is no hazard was made while BUSY = 0, and is its place's write. -/
theorem hostWrite_eq_next {s t : State} {a : Addr} {v : Byte} (h : hostWrite a v s = .next t) :
    s.pending = none ∧ t = writePlace v s (placeOf a) := by
  rcases hostWrite_cases a v s with ⟨-, e⟩ | ⟨hs, e⟩ <;>
    simp only [e, Host.Outcome.next.injEq, reduceCtorEq] at h
  exact ⟨busy_eq_false.mp hs, h.symm⟩

/-- A write to an address other than CMD leaves what every other address holds. -/
theorem readPlace_placeOf_writePlace_other {a b : Addr} (ha : a ≠ 0x0000) (h : b ≠ a) (v : Byte) (s : State) :
    readPlace (writePlace v s (placeOf a)) (placeOf b) = readPlace s (placeOf b) := by
  by_cases hab : placeOf a = placeOf b
  · have hu : placeOf a = .unmapped := (placeOf_inj hab).resolve_left h.symm
    rw [hu, writePlace]
  · exact readPlace_writePlace_other (mt placeOf_eq_cmd.mp ha) (Ne.symm hab) v s

/-- Settles O18: a read changes the record of events alone, and a write changes its own place alone, once. -/
theorem onlyCmdWritesHaveSideEffects : Obligations.OnlyCmdWritesHaveSideEffects := by
  unfold Obligations.OnlyCmdWritesHaveSideEffects
  refine ⟨fun s t a => hostRead_again, fun s t a b v ha h => ?_⟩
  obtain ⟨hidle, rfl⟩ := hostWrite_eq_next h
  obtain ⟨hpending, -, -⟩ := writePlace_idle v s (mt placeOf_eq_cmd.mp ha)
  obtain ⟨-, -, htrace, -⟩ := writePlace_frame v s (placeOf a)
  refine ⟨hpending, htrace, ?_, fun hb => readPlace_placeOf_writePlace_other ha hb v s⟩
  rw [hostWrite_of_idle (hpending.trans hidle), writePlace_writePlace_same]

/-- Settles O15: an unmapped address holds 0x00, and a write to it stores nothing. -/
theorem unmappedAddressesReadZero : Obligations.UnmappedAddressesReadZero := by
  unfold Obligations.UnmappedAddressesReadZero
  intro s a v hp ha
  have hu : placeOf a = .unmapped := placeOf_unmapped ha
  constructor
  · exact hostRead_of_readPlace (.inl (busy_eq_false.mpr hp)) (by rw [hu, readPlace])
  · rw [hostWrite_of_idle hp, hu, writePlace]

/-- Settles O16: `writePlace_of_readOnly` at the address's place; MSG_CT takes the field of bits 3..0. -/
theorem readOnlyAddressesIgnoreWrites : Obligations.ReadOnlyAddressesIgnoreWrites := by
  unfold Obligations.ReadOnlyAddressesIgnoreWrites
  intro s a v hp
  constructor
  · intro ha
    rw [hostWrite_of_idle hp]
    rcases placeOf_spec a with haddr | ⟨hu, -⟩
    · rw [writePlace_of_readOnly haddr (placeOf_inBuffers a) ha]
    · rw [hu, writePlace]
  · intro ha
    obtain rfl : a = 0x0006 := BitVec.eq_of_toNat_eq ha
    exact ⟨v.extractLsb' 0 4, by simp, hostWrite_of_idle hp 0x0006 v⟩

end Sys2Proof.Machine
end

section
/-! PROOFS. The statements of 30_encoding: the command byte, the control fields under both layouts, and the command type
split over pci and data[0]. -/

namespace Sys2Proof.Machine

/-! ## pci, data[0] and the command type (30_encoding R79 to R81) -/

/-- A field of a byte as a number. -/
theorem field_toNat (b : Byte) (lo n : Nat) : (field b lo n).toNat = b.toNat / 2 ^ lo % 2 ^ n := extract_toNat b lo n

/-- R81: the command type is pci's low two bits over data[0]'s high two. -/
theorem commandType_toNat (pci d0 : Byte) : (commandType pci d0).toNat = pci.toNat % 4 * 4 + d0.toNat / 64 := by
  have := d0.isLt
  rw [commandType, apciHigh, append_toNat, field_toNat, field_toNat]
  omega

/-- R79, R127: pci is ENC_TPCI over the command type's high two bits. -/
theorem pciOf_toNat (tpci : BitVec 6) (ct : BitVec 4) : (pciOf tpci ct).toNat = tpci.toNat * 4 + ct.toNat / 4 := by
  have := ct.isLt
  rw [pciOf, append_toNat, extract_toNat]
  omega

/-- R80: the mask of data[0] keeps P[0]'s low six bits, and the command type's low two, shifted by six, lie above them. -/
theorem data0Of_toNat (ct : BitVec 4) (p0 : Byte) : (data0Of ct p0).toNat = ct.toNat % 4 * 64 + p0.toNat % 64 := by
  have mask : p0.toNat &&& 63 = p0.toNat % 64 := Nat.and_two_pow_sub_one_eq_mod p0.toNat 6
  have below : p0.toNat % 64 < 2 ^ 6 := Nat.mod_lt _ (by decide)
  calc (data0Of ct p0).toNat
    _ = p0.toNat % 64 ||| 2 ^ 6 * (ct.toNat % 4) := by
      rw [data0Of, BitVec.toNat_or, BitVec.toNat_and, append_toNat, extract_toNat, Nat.mul_comm]
      exact congrArg₂ (· ||| ·) mask (by simp)
    _ = 2 ^ 6 * (ct.toNat % 4) + p0.toNat % 64 := by rw [Nat.or_comm, ← Nat.two_pow_add_eq_or_of_lt below]
    _ = ct.toNat % 4 * 64 + p0.toNat % 64 := by omega

/-- Settles O4: each byte's value from the fields it is put together of, and `commandType_split` for the round trip. -/
theorem commandTypeSplitRoundTrip : Obligations.CommandTypeSplitRoundTrip := by
  unfold Obligations.CommandTypeSplitRoundTrip
  exact ⟨commandType_toNat, fun tpci ct p0 => ⟨pciOf_toNat tpci ct, data0Of_toNat ct p0, commandType_split tpci ct p0⟩⟩

/-! ## The command byte (30_encoding R65 to R67) -/

/-- The encoding statement of each command, put together for all of them. -/
theorem encoding_statement : ∀ i : Instr, Laws.Encoding.Statement i
  | .decode => Laws.Encoding.decode
  | .encode => Laws.Encoding.encode
  | .dptBool => Laws.Encoding.dptBool
  | .dptInt8 => Laws.Encoding.dptInt8
  | .dptUint8 => Laws.Encoding.dptUint8
  | .dptInt16 => Laws.Encoding.dptInt16
  | .dptUint16 => Laws.Encoding.dptUint16
  | .dptFloat16 => Laws.Encoding.dptFloat16
  | .dptInt32 => Laws.Encoding.dptInt32
  | .dptUint32 => Laws.Encoding.dptUint32
  | .dptFloat32 => Laws.Encoding.dptFloat32

/-- A byte that selects no command is rejected by its own value (30_encoding R66). -/
theorem decode_ok_or_illegal (c : Byte) : (∃ i, decode c = .ok i) ∨ decode c = .error (.illegalCommand c) := by
  unfold decode
  iterate 11
    refine ite_induction (fun d => (∃ i, d = Except.ok i) ∨ d = .error (DecodeError.illegalCommand c))
      (fun _ => .inl ⟨_, rfl⟩) fun _ => ?_
  exact .inr rfl

/-- Settles O2: the eleven rows decode from their own bytes, and every branch of the decoder is a row or the rejection. -/
theorem commandByteDecodeEncodeAgree : Obligations.CommandByteDecodeEncodeAgree := by
  unfold Obligations.CommandByteDecodeEncodeAgree
  refine ⟨fun i => ?_, fun c i => encode_of_decode, decode_ok_or_illegal⟩
  obtain ⟨hwf, hdecode, -, -⟩ := encoding_statement i
  exact ⟨hwf, hdecode⟩

/-! ## The control fields (30_encoding R76 to R78) -/

/-- A byte under the mask of one bit is nonzero exactly if that bit, read as a field, is 1. -/
theorem and_twoPow_ne_zero_toNat (c : Byte) {k : Nat} (hk : k < 8) :
    (c &&& BitVec.twoPow 8 k != 0).toNat = (field c k 1).toNat := by
  have hmask : BitVec.twoPow 8 k ≠ 0 := fun h => by simpa [hk] using congrArg (BitVec.getLsbD · k) h
  have hbit : (c &&& BitVec.twoPow 8 k != 0) = c.getLsbD k := by
    rw [BitVec.and_twoPow]
    cases c.getLsbD k with
    | true => exact bne_iff_ne.mpr hmask
    | false => rfl
  rw [hbit, field_toNat]
  exact Nat.toNat_testBit c.toNat k

/-- R78: DAT is bit 7 of control_2 under KNX. -/
theorem dat_knx_toNat (c2 : Byte) : (dat .knx c2).toNat = (field c2 7 1).toNat :=
  and_twoPow_ne_zero_toNat c2 (by decide : 7 < 8)

/-- R78: DAT is bit 0 of control_2 under DOC_LITERAL. -/
theorem dat_docLiteral_toNat (c2 : Byte) : (dat .docLiteral c2).toNat = (field c2 0 1).toNat :=
  and_twoPow_ne_zero_toNat c2 (by decide : 0 < 8)

/-- Settles O5: with DAT read as a field too, the fields of each layout are adjacent quotients and remainders of the byte. -/
theorem controlFieldsUnderBothLayouts : Obligations.ControlFieldsUnderBothLayouts := by
  unfold Obligations.ControlFieldsUnderBothLayouts
  refine ⟨fun c1 => ?_, fun c2 => ?_⟩
  · have := c1.isLt
    simp only [ctrl1Confirm, ctrl1AckRequest, ctrl1Priority, ctrl1SystemBroadcast, ctrl1Repeat, ctrl1Reserved,
      ctrl1FrameType, field_toNat]
    constructor <;> omega
  · have := c2.isLt
    simp only [extendedFrameFormat, hopCount, dat_knx_toNat, dat_docLiteral_toNat, field_toNat]
    constructor <;> omega

end Sys2Proof.Machine
end

section
/-! PROOFS. The statements of 41_dpt on each DPT command: its length check, its fault on an unwritten value byte, and the
value it writes. -/

namespace Sys2Proof.Machine

/-! ## Reading the value bytes (41_dpt R93, 60_exceptions R140) -/

/-- What `read` does if it reads P[off..off+n-1] in order and makes `a` of them: it answers `a` where all of them have
been written, and faults where one has not. -/
def ReadsPayload {α : Type} (s : State) (off n : Nat) (read : Except Fault α) (a : α) : Prop :=
  (Written s .payload off n → read = .ok a) ∧ (¬ Written s .payload off n → ∃ k, read = .error (.uninit .payload k))

section
variable {α β : Type} {s : State} {off n : Nat} {read : Except Fault α} {a : α}

theorem written_succ_iff {st : Store} :
    Written s st off (n + 1) ↔ (memGet (s.store st) off).isSome ∧ Written s st (off + 1) n := by
  rw [Written, Written, Nat.forall_lt_succ_left]
  simp only [Nat.add_zero, Nat.add_assoc, Nat.add_comm 1]

/-- A written payload byte reads as P[k]. -/
theorem readByte_payload_of_isSome {k : Nat} (h : (memGet s.payload k).isSome) : readByte s .payload k = .ok (s.p k) :=
  readByte_ok.mpr (memGet_of_written (st := .payload) h)

/-- With no byte left to read, the value is there. -/
theorem ReadsPayload.done : ReadsPayload s off 0 (pure a) a :=
  ⟨fun _ => rfl, fun h => absurd (fun _ hk => absurd hk (Nat.not_lt_zero _)) h⟩

/-- One byte read, then the rest: the first unwritten byte faults, whichever part it lies in. -/
theorem ReadsPayload.readByte_bind {rest : Byte → Except Fault α} (h : ReadsPayload s (off + 1) n (rest (s.p off)) a) :
    ReadsPayload s off (n + 1) (readByte s .payload off >>= rest) a := by
  obtain ⟨hok, hfault⟩ := h
  rw [ReadsPayload, written_succ_iff]
  cases hb : memGet s.payload off with
  | none =>
    rw [readByte_error (st := .payload).mpr ⟨hb, rfl⟩]
    exact ⟨fun ⟨hw, _⟩ => by simp [hb] at hw, fun _ => ⟨off, rfl⟩⟩
  | some b =>
    have hsome : (memGet s.payload off).isSome := by rw [hb]; rfl
    rw [readByte_payload_of_isSome hsome]
    exact ⟨fun ⟨_, hw⟩ => hok hw, fun hw => hfault fun hrest => hw ⟨hsome, hrest⟩⟩

/-- A value computed from the bytes read. -/
theorem ReadsPayload.map (f : α → β) (h : ReadsPayload s off n read a) : ReadsPayload s off n (read.map f) (f a) := by
  obtain ⟨hok, hfault⟩ := h
  refine ⟨fun hw => by rw [hok hw]; rfl, fun hw => ?_⟩
  obtain ⟨k, hk⟩ := hfault hw
  exact ⟨k, by rw [hk]; rfl⟩

end

theorem readsPayload_dptByte (s : State) : ReadsPayload s 1 1 (dptByte s) (s.p 1) := by
  rw [dptByte, ← bind_pure (readByte s .payload 1)]
  exact ReadsPayload.done.readByte_bind

theorem readsPayload_dptWord16 (s : State) : ReadsPayload s 1 2 (dptWord16 s) (be16 (s.p 1) (s.p 2)) :=
  .readByte_bind (.readByte_bind .done)

theorem readsPayload_dptWord32 (s : State) :
    ReadsPayload s 1 4 (dptWord32 s) (be32 (s.p 1) (s.p 2) (s.p 3) (s.p 4)) :=
  .readByte_bind (.readByte_bind (.readByte_bind (.readByte_bind .done)))

/-- The frame of every DPT command (41_dpt R93) by its three clauses: short, a value byte unwritten, complete. -/
theorem dptCommand_clauses {s : State} {n : Nat} {value : Except Fault (BitVec 32)} {v : BitVec 32} (need : Nat)
    (commit : BitVec 32 → State → State) (h : ReadsPayload s 1 n value v) :
    (s.msgLen.toNat < need → dptCommand need s value commit = .next (complete .errDptLen s))
    ∧ (need ≤ s.msgLen.toNat → ¬ Written s .payload 1 n → FaultsUninit (dptCommand need s value commit))
    ∧ (need ≤ s.msgLen.toNat → Written s .payload 1 n →
        dptCommand need s value commit = .next (complete .dptOk (commit v s))) := by
  obtain ⟨hok, hfault⟩ := h
  refine ⟨fun hlen => if_pos hlen, fun hlen hw => ?_, fun hlen hw => ?_⟩
  · obtain ⟨k, hk⟩ := hfault hw
    exact ⟨.payload, k, by simp only [dptCommand, if_neg (Nat.not_lt.mpr hlen), hk]⟩
  · simp only [dptCommand, if_neg (Nat.not_lt.mpr hlen), hok hw]

/-! ## The integer values (41_dpt R95 to R99, R102, R103) -/

/-- Bit 0 of a byte says whether it is odd. -/
theorem setWidth_bit_zero (b : Byte) : (b.extractLsb' 0 1).setWidth 32 = if b.toNat % 2 = 1 then 1 else 0 := by
  apply BitVec.eq_of_toNat_eq
  rw [BitVec.toNat_setWidth, extract_toNat]
  split <;> simp <;> omega

/-- Sign extension by the value of the pattern, read as signed. -/
theorem signExtend_eq_ofInt {w : Nat} (v : Nat) (x : BitVec (w + 1)) :
    x.signExtend v = BitVec.ofInt v (if x.toNat < 2 ^ w then x.toNat else (x.toNat : Int) - 2 ^ (w + 1)) := by
  have hlt : 2 * x.toNat < 2 ^ (w + 1) ↔ x.toNat < 2 ^ w := by omega
  rw [BitVec.signExtend, BitVec.toInt_eq_toNat_cond, if_congr hlt rfl rfl]
  norm_cast

/-- The case of a byte, its powers of two written out. -/
theorem signExtend_byte_eq_ofInt (b : Byte) :
    b.signExtend 32 = BitVec.ofInt 32 (if b.toNat < 128 then b.toNat else (b.toNat : Int) - 256) := by
  simp only [signExtend_eq_ofInt, Nat.reducePow, Int.reducePow, Nat.reduceAdd]

/-- BE16(P[1], P[2]) as a number. -/
theorem be16_p_toNat (s : State) : (be16 (s.p 1) (s.p 2)).toNat = s.p16 := be16_toNat _ _

/-- BE32(P[1], P[2], P[3], P[4]) as a number. -/
theorem be32_p_toNat (s : State) : (be32 (s.p 1) (s.p 2) (s.p 3) (s.p 4)).toNat = s.p32 := be32_toNat _ _ _ _

/-- Settles O22: bit 0 of P[1], extended with zeros, is 1 exactly if P[1] is odd. -/
theorem dptBoolReadsBitZeroOfByteOne : Obligations.DptBoolReadsBitZeroOfByteOne := by
  unfold Obligations.DptBoolReadsBitZeroOfByteOne
  refine ⟨rfl, fun s => ?_⟩
  rw [← setWidth_bit_zero]
  exact dptCommand_clauses 2 setDptResult ((readsPayload_dptByte s).map _)

/-- Settles O23: sext_32 of one byte. -/
theorem dptInt8SignExtendsByteOne : Obligations.DptInt8SignExtendsByteOne := by
  unfold Obligations.DptInt8SignExtendsByteOne
  refine ⟨rfl, fun s => ?_⟩
  rw [← signExtend_byte_eq_ofInt]
  exact dptCommand_clauses 2 setDptResult ((readsPayload_dptByte s).map _)

/-- Settles O24: zext_32 of one byte. -/
theorem dptUint8ZeroExtendsByteOne : Obligations.DptUint8ZeroExtendsByteOne := by
  unfold Obligations.DptUint8ZeroExtendsByteOne
  refine ⟨rfl, fun s => ?_⟩
  rw [BitVec.ofNat_toNat]
  exact dptCommand_clauses 2 setDptResult ((readsPayload_dptByte s).map _)

/-- Settles O25: sext_32 of two bytes, big-endian. -/
theorem dptInt16SignExtendsBigEndianWord : Obligations.DptInt16SignExtendsBigEndianWord := by
  unfold Obligations.DptInt16SignExtendsBigEndianWord
  refine ⟨rfl, fun s => ?_⟩
  rw [← be16_p_toNat, ← signExtend_eq_ofInt (w := 15)]
  exact dptCommand_clauses 3 setDptResult ((readsPayload_dptWord16 s).map _)

/-- Settles O26: zext_32 of two bytes, big-endian. -/
theorem dptUint16ZeroExtendsBigEndianWord : Obligations.DptUint16ZeroExtendsBigEndianWord := by
  unfold Obligations.DptUint16ZeroExtendsBigEndianWord
  refine ⟨rfl, fun s => ?_⟩
  rw [← be16_p_toNat, BitVec.ofNat_toNat]
  exact dptCommand_clauses 3 setDptResult ((readsPayload_dptWord16 s).map _)

/-- Settles O28: 32 bits extended to 32 are the same pattern, so its signed reading gives it back. -/
theorem dptInt32IsTheBigEndianPattern : Obligations.DptInt32IsTheBigEndianPattern := by
  unfold Obligations.DptInt32IsTheBigEndianPattern
  refine ⟨rfl, fun s => ?_⟩
  rw [← be32_p_toNat, ← signExtend_eq_ofInt (w := 31), BitVec.signExtend_eq]
  exact dptCommand_clauses 5 setDptResult (readsPayload_dptWord32 s)

/-- Settles O29: the pattern is the one of its own number. -/
theorem dptUint32IsTheBigEndianPattern : Obligations.DptUint32IsTheBigEndianPattern := by
  unfold Obligations.DptUint32IsTheBigEndianPattern
  refine ⟨rfl, fun s => ?_⟩
  rw [← be32_p_toNat, BitVec.ofNat_toNat, BitVec.setWidth_eq]
  exact dptCommand_clauses 5 setDptResult (readsPayload_dptWord32 s)

/-! ## DPT.FLOAT32 (41_dpt R104) -/

/-- The bytes of BE32, each in its place. -/
theorem be32_bytes (b0 b1 b2 b3 : Byte) :
    (be32 b0 b1 b2 b3).extractLsb' 24 8 = b0 ∧ (be32 b0 b1 b2 b3).extractLsb' 16 8 = b1
    ∧ (be32 b0 b1 b2 b3).extractLsb' 8 8 = b2 ∧ (be32 b0 b1 b2 b3).extractLsb' 0 8 = b3 := by
  have := b0.isLt
  have := b1.isLt
  have := b2.isLt
  have := b3.isLt
  simp only [← BitVec.toNat_inj, extract_toNat, be32_toNat]
  omega

/-- Settles O30: the pattern written is BE32, which keeps each of its bytes. -/
theorem dptFloat32KeepsEveryPattern : Obligations.DptFloat32KeepsEveryPattern := by
  unfold Obligations.DptFloat32KeepsEveryPattern
  refine ⟨rfl, fun s => ?_⟩
  obtain ⟨hshort, hfault, hok⟩ := dptCommand_clauses 5 setDptResult (readsPayload_dptWord32 s)
  exact ⟨hshort, hfault, fun hlen hw => ⟨_, hok hlen hw, rfl, be32_bytes _ _ _ _⟩⟩

/-! ## DPT.FLOAT16 (41_dpt R100, R101) -/

/-- S is set in the upper half of the words. -/
theorem dpt9Sign_eq_decide (w : BitVec 16) : dpt9Sign w = decide (2 ^ 15 ≤ w.toNat) :=
  BitVec.msb_eq_decide w

/-- m is the word modulo 2^11. -/
theorem dpt9Fraction_toNat (w : BitVec 16) : (dpt9Fraction w).toNat = w.toNat % 2 ^ 11 := by
  rw [dpt9Fraction, extract_toNat, pow_zero, Nat.div_one]

/-- Under TWOS12 a negative mantissa is m - 2048: the complement of 11 bits, plus 1, negated. -/
theorem neg_not_add_one (m : BitVec 11) : -(((~~~m).toNat : Int) + 1) = m.toNat - 2048 := by
  have := m.isLt
  rw [BitVec.toNat_not]
  omega

/-- The model's mantissa is R100's, under both readings. -/
theorem dpt9Mantissa_eq_dpt9M (mode : Dpt9Mantissa) (w : BitVec 16) : dpt9Mantissa mode w = dpt9M mode w.toNat := by
  by_cases h : w.toNat < 2 ^ 15
  · have hsign : dpt9Sign w = false := by rw [dpt9Sign_eq_decide, decide_eq_false (by omega)]
    simp only [dpt9Mantissa, dpt9M, hsign, if_pos h, dpt9Fraction_toNat]
  · have hsign : dpt9Sign w = true := by rw [dpt9Sign_eq_decide, decide_eq_true (by omega)]
    cases mode <;> simp only [dpt9Mantissa, dpt9M, hsign, if_neg h, neg_not_add_one, dpt9Fraction_toNat]

/-- The model's numerator is R100's M * 2^E. -/
theorem dpt9Numerator_eq_dpt9Q (mode : Dpt9Mantissa) (w : BitVec 16) : dpt9Numerator mode w = dpt9Q mode w.toNat := by
  simp only [dpt9Numerator, dpt9Q, dpt9Mantissa_eq_dpt9M, dpt9Exponent, extract_toNat, Nat.reducePow]

/-- Under EXACT the value is RNE32, whatever the draw. -/
theorem dpt9Value_exact (mode : Dpt9Mantissa) (up : Bool) (w : BitVec 16) :
    dpt9Value mode .exact up w = rne32 (dpt9Numerator mode w) 100 := by
  simp only [dpt9Value]

/-- Under FAITHFUL the value is one of the two neighbours, whichever the draw takes. -/
theorem dpt9Value_faithful (mode : Dpt9Mantissa) (up : Bool) (w : BitVec 16) :
    dpt9Value mode .faithful up w = lower32 (dpt9Numerator mode w) 100
    ∨ dpt9Value mode .faithful up w = upper32 (dpt9Numerator mode w) 100 := by
  cases up with
  | false => exact .inl (by simp only [dpt9Value, Bool.false_eq_true, if_false])
  | true => exact .inr (by simp only [dpt9Value, if_true])

/-- Under EXACT the commit of DPT.FLOAT16 is that of every DPT command. -/
theorem commitFloat16_of_exact {s : State} (h : s.params.dpt9Rounding = .exact) (v : BitVec 32) :
    commitFloat16 v s = setDptResult v s := by
  rw [commitFloat16, drawsAfter_of_exact h]
  rfl

/-- Settles O27: the numerator the model rounds is R100's, under either rounding and whatever neighbour is drawn. -/
theorem dptFloat16RoundsMantissaTimesPowerOverHundred : Obligations.DptFloat16RoundsMantissaTimesPowerOverHundred := by
  unfold Obligations.DptFloat16RoundsMantissaTimesPowerOverHundred
  refine ⟨rfl, fun s => ?_⟩
  obtain ⟨hshort, hfault, hok⟩ := dptCommand_clauses 3 commitFloat16 ((readsPayload_dptWord16 s).map
    (dpt9Value s.params.dpt9Mantissa s.params.dpt9Rounding (nextDraw s)))
  rw [← be16_p_toNat, ← dpt9Numerator_eq_dpt9Q]
  refine ⟨hshort, hfault, fun hlen hw hexact => ?_, fun hlen hw hfaithful => ⟨_, _, hok hlen hw, ?_⟩⟩
  · rw [← dpt9Value_exact _ (nextDraw s), ← hexact]
    exact (hok hlen hw).trans (by rw [commitFloat16_of_exact hexact]; rfl)
  · rw [hfaithful]
    exact dpt9Value_faithful _ _ _

end Sys2Proof.Machine
end

section
/-! PROOFS. The statements of 42_decode: which bytes DECODE reads, the code of the first check that fails, delivery, and
the bytes it never reads. All of them rest on `execDecode_eq`, which says once what DECODE does. -/

namespace Sys2Proof.Machine

/-! ## Reads and checks in a row -/

/-- `y` once the bytes of RXBUF at the offsets `ks` have been read in order: the first one never written faults instead
(60_exceptions R140). -/
def afterReads {α : Type} (s : State) (ks : List Nat) (y : Except Stop α) : Except Stop α :=
  (ks.find? fun k => (memGet s.rx k).isNone).elim y fun k => .error (.fault (.uninit .rx k))

/-- What `x` does if it reads RXBUF at the offsets `ks` in order, with checks in between: an unwritten byte among them
faults, a check that failed discards with its code, and else `x` answers `v`. -/
def Decodes {α : Type} (s : State) (x : Except Stop α) (ks : List Nat) (failure : Option ResultCode) (v : α) : Prop :=
  x = afterReads s ks (failure.elim (.ok v) fun r => .error (.discard r))

section
variable {α : Type} {s : State} {ks : List Nat} {failure : Option ResultCode} {v : α}

theorem afterReads_cons (k : Nat) (ks : List Nat) (y : Except Stop α) :
    afterReads s (k :: ks) y =
      if (memGet s.rx k).isNone then .error (.fault (.uninit .rx k)) else afterReads s ks y := by
  rw [afterReads, List.find?_cons]
  cases (memGet s.rx k).isNone <;> rfl

/-- One byte read, then the rest. -/
theorem Decodes.read {k : Nat} {f : Byte → Except Stop α} (h : Decodes s (f (s.rxAt k)) ks failure v) :
    Decodes s (rxByte s k >>= f) (k :: ks) failure v := by
  rw [Decodes, afterReads_cons]
  cases hb : memGet s.rx k with
  | none =>
    rw [rxByte_error.mpr ⟨hb, rfl⟩]
    rfl
  | some b =>
    rw [rxByte_of_written (by rw [hb]; rfl)]
    exact h

/-- One check, then the rest where it passes: where it fails nothing more is read. -/
theorem Decodes.check {bad : Bool} {c : Prop} [Decidable c] {r : ResultCode} {f : Unit → Except Stop α}
    (hbad : bad = true ↔ c) (h : Decodes s (f ()) ks failure v) :
    Decodes s (discardIf bad r >>= f) (if c then [] else ks) (if c then some r else failure) v := by
  rw [← if_congr hbad rfl rfl, ← if_congr hbad rfl rfl]
  cases bad with
  | true => rfl
  | false => exact h

theorem rxBytes_succ (s : State) (off n : Nat) :
    rxBytes s off (n + 1) = rxByte s off >>= fun b => rxBytes s (off + 1) n >>= fun bs => pure (b :: bs) := by
  simp only [rxBytes, rxByte, readBytes]
  cases readByte s .rx off with
  | error f => rfl
  | ok b => cases readBytes s .rx (off + 1) n <;> rfl

/-- Consecutive bytes read, and a value computed from all of them. -/
theorem Decodes.readBytes (off n : Nat) (f : List Byte → α) :
    Decodes s (rxBytes s off n >>= fun bs => pure (f bs)) (List.range' off n) none
      (f ((List.range' off n).map s.rxAt)) := by
  induction n generalizing off f with
  | zero => rfl
  | succ n ih =>
    simp only [rxBytes_succ, bind_assoc, pure_bind]
    exact .read (ih (off + 1) fun bs => f (s.rxAt off :: bs))

end

/-! ## Everything DECODE does (42_decode R105) -/

/-- The message of the frame in RXBUF (42_decode R116). -/
def State.rxMessage (s : State) : Message where
  ct    := commandType (s.rxAt (15 + s.rxN)) (s.rxAt (16 + s.rxN))
  src   := be16 (s.rxAt (10 + s.rxN)) (s.rxAt (11 + s.rxN))
  dst   := be16 (s.rxAt (12 + s.rxN)) (s.rxAt (13 + s.rxN))
  len   := s.rxAt (14 + s.rxN)
  bytes := stripFragment (s.rxAt (16 + s.rxN)) :: (List.range' (17 + s.rxN) (s.rxL - 1)).map s.rxAt

/-- The header checks of both modes as four checks in a row: those of the other mode pass. -/
theorem checkHeader_eq_discardIfs (p : Params) (hl ver : Byte) (svc : BitVec 16) :
    checkHeader p hl ver svc = (do
      discardIf (decide (p.hdrCheckMode = .any) && hl != headerLen) .discHdrLen
      discardIf (decide (p.hdrCheckMode = .any) && ver != protocolVersion) .discHdrVersion
      discardIf (decide (p.hdrCheckMode = .any) && svc != p.svcRoutingInd) .discHdrService
      discardIf (decide (p.hdrCheckMode = .all)
        && (hl != headerLen && (ver != protocolVersion && svc != p.svcRoutingInd))) .discHdrAll) := by
  unfold checkHeader
  cases p.hdrCheckMode with
  | any => cases svc != p.svcRoutingInd <;> rfl
  | all =>
    simp only [Bool.and_assoc]
    rfl

theorem bne_iff_toNat_ne {w : Nat} {a b : BitVec w} : (a != b) = true ↔ a.toNat ≠ b.toNat := by
  simp [BitVec.toNat_inj]

theorem beq_iff_toNat_eq {w : Nat} {a b : BitVec w} : (a == b) = true ↔ a.toNat = b.toNat := by
  simp [BitVec.toNat_inj]

/-- DECODE reads the offsets of `decodeReads` and makes the checks of `firstFailure`: with the reads that every branch
shares taken out of the branches, the three are the same row of checks. -/
theorem decodes_execDecode (s : State) :
    Decodes s (checkDatagram s >>= fun (n, l) => readMessage s n l >>= fun m => pure (acceptMessage m s))
      s.decodeReads s.firstFailure (acceptMessage s.rxMessage s) := by
  have cons_ite (c : Prop) [Decidable c] (k : Nat) (ks js : List Nat) :
      (if c then k :: ks else k :: js) = k :: if c then ks else js := (apply_ite (List.cons k) c ks js).symm
  have dec {c : Prop} [Decidable c] : decide c = true ↔ c := decide_eq_true_iff
  have svc : (be16 (s.rxAt 2) (s.rxAt 3) != s.params.svcRoutingInd) = true
      ↔ s.rxService ≠ s.params.svcRoutingInd.toNat := by
    rw [bne_iff_toNat_ne, be16_rxAt]
  have any {b : Bool} {c : Prop} (hb : b = true ↔ c) :
      (decide (s.params.hdrCheckMode = .any) && b) = true ↔ s.params.hdrCheckMode = .any ∧ c := by
    rw [Bool.and_eq_true, dec, hb]
  have all : (decide (s.params.hdrCheckMode = .all) && (s.rxAt 0 != headerLen
        && (s.rxAt 1 != protocolVersion && be16 (s.rxAt 2) (s.rxAt 3) != s.params.svcRoutingInd))) = true
      ↔ s.params.hdrCheckMode = .all ∧ (s.rxAt 0).toNat ≠ 0x06 ∧ (s.rxAt 1).toNat ≠ 0x10
        ∧ s.rxService ≠ s.params.svcRoutingInd.toNat := by
    rw [Bool.and_eq_true, Bool.and_eq_true, Bool.and_eq_true, dec, svc, bne_iff_toNat_ne, bne_iff_toNat_ne]
    rfl
  unfold checkDatagram State.decodeReads State.firstFailure
  simp only [readMessage, checkHeader_eq_discardIfs, bind_assoc, pure_bind, ← List.range'_eq_map_range]
  simp only [State.headerFails, and_or_left, ite_or, List.cons_append, List.nil_append, cons_ite]
  refine .check dec <| .read <| .read <| .read <| .read ?_
  refine .check (any bne_iff_toNat_ne) <| .check (any bne_iff_toNat_ne) <| .check (any svc) <| .check all ?_
  refine .check dec <| .read <| .check bne_iff_toNat_ne <| .read <| .check dec <| .read ?_
  refine .check (iff_of_eq (Bool.not_eq_true' _)) <| .read ?_
  refine .check beq_iff_toNat_eq <| .check dec <| .check dec ?_
  exact .read <| .read <| .read <| .read <| .read <| .read <| .readBytes _ _ _

/-- DECODE faults at the first unwritten byte it reads, else discards with the code of the first check that fails, and
else delivers the message of the frame. -/
theorem execDecode_eq (s : State) :
    execDecode s = commandOutcome s (s.firstUnwrittenRead.elim
      (s.firstFailure.elim (.ok (acceptMessage s.rxMessage s)) fun r => .error (.discard r))
      fun k => .error (.fault (.uninit .rx k))) :=
  congrArg (commandOutcome s) (decodes_execDecode s)

theorem exec_decode_of_firstFailure {s : State} {r : ResultCode} (hw : s.firstUnwrittenRead = none)
    (hr : s.firstFailure = some r) : exec .decode s = .next (complete r s) := by
  rw [exec, execDecode_eq, hw, hr]
  rfl

theorem exec_decode_of_passed {s : State} (hw : s.firstUnwrittenRead = none) (hp : s.firstFailure = none) :
    exec .decode s = .next (acceptMessage s.rxMessage s) := by
  rw [exec, execDecode_eq, hw, hp]
  rfl

/-- A DECODE that ends has read no unwritten byte; it has discarded or delivered. -/
theorem exec_decode_eq_next {s t : State} (h : exec .decode s = .next t) :
    s.firstUnwrittenRead = none ∧ ((∃ r, s.firstFailure = some r ∧ t = complete r s)
      ∨ (s.firstFailure = none ∧ t = acceptMessage s.rxMessage s)) := by
  rw [exec, execDecode_eq] at h
  cases hw : s.firstUnwrittenRead with
  | some k =>
    rw [hw] at h
    cases h
  | none =>
    cases hf : s.firstFailure with
    | some r =>
      rw [hw, hf] at h
      cases h
      exact ⟨rfl, .inl ⟨r, rfl, rfl⟩⟩
    | none =>
      rw [hw, hf] at h
      cases h
      exact ⟨rfl, .inr ⟨rfl, rfl⟩⟩

theorem firstUnwrittenRead_eq_none_iff {s : State} :
    s.firstUnwrittenRead = none ↔ ∀ k ∈ s.decodeReads, (memGet s.rx k).isSome := by
  simp [State.firstUnwrittenRead, List.find?_eq_none, Option.isSome_iff_ne_none]

/-! ## The first failing check (42_decode R107 to R115, R118) -/

theorem ite_some_eq_none_iff {α : Type} {c : Prop} [Decidable c] {a : α} {o : Option α} :
    (if c then some a else o) = none ↔ ¬c ∧ o = none := by
  split_ifs with h <;> simp [h]

/-- R118: no check fails exactly where the acceptance condition holds. -/
theorem firstFailure_eq_none_iff {s : State} : s.firstFailure = none ↔ s.accepts := by
  simp only [State.firstFailure, State.accepts, ite_some_eq_none_iff, not_lt, Bool.not_eq_false, Nat.one_le_iff_ne_zero,
    ne_eq, not_and, not_not, imp_and, or_iff_not_imp_left, and_assoc, and_true]

theorem firstFailure_isDiscard {s : State} {r : ResultCode} : s.firstFailure = some r → r.isDiscard = true := by
  unfold State.firstFailure
  iterate 12
    refine ite_induction (fun o : Option ResultCode => o = some r → r.isDiscard = true) (fun _ h => ?_) fun _ => ?_
    · cases h
      decide
  exact nofun

/-- Settles O41: `execDecode_eq` where every byte read was written and some check fails. -/
theorem decodeReportsTheFirstFailingCheck : Obligations.DecodeReportsTheFirstFailingCheck := by
  unfold Obligations.DecodeReportsTheFirstFailingCheck
  exact fun _ _ => exec_decode_of_firstFailure

/-! ## The header (42_decode R107 to R110) -/

/-- A DECODE that goes no further than the check of R110 reads RX[0..3] at most. -/
theorem exec_decode_of_header {s : State} {r : ResultCode} (hw : Written s .rx 0 4)
    (hstop : s.headerFails ∨ s.rxlen.toNat < 8) (hr : s.firstFailure = some r) :
    exec .decode s = .next (complete r s) := by
  refine exec_decode_of_firstFailure (firstUnwrittenRead_eq_none_iff.mpr fun k hk => ?_) hr
  have hk : k < 4 := by
    simp only [State.decodeReads, if_pos hstop] at hk
    split_ifs at hk
    · cases hk
    · simp only [List.mem_cons, List.not_mem_nil, or_false] at hk
      omega
  simpa using hw k hk

theorem not_headerFails_iff {s : State} :
    ¬ s.headerFails ↔ ¬(s.params.hdrCheckMode = .any ∧ (s.rxAt 0).toNat ≠ 0x06)
      ∧ ¬(s.params.hdrCheckMode = .any ∧ (s.rxAt 1).toNat ≠ 0x10)
      ∧ ¬(s.params.hdrCheckMode = .any ∧ s.rxService ≠ s.params.svcRoutingInd.toNat)
      ∧ ¬(s.params.hdrCheckMode = .all ∧ (s.rxAt 0).toNat ≠ 0x06 ∧ (s.rxAt 1).toNat ≠ 0x10
          ∧ s.rxService ≠ s.params.svcRoutingInd.toNat) := by
  simp only [State.headerFails, and_or_left, not_or, and_assoc]

/-- The header passes under ANY with all three fields right, under ALL with one of them right. -/
theorem not_headerFails {s : State}
    (hany : s.params.hdrCheckMode = .any →
      s.rxAt 0 = 0x06 ∧ s.rxAt 1 = 0x10 ∧ s.rxService = s.params.svcRoutingInd.toNat)
    (hall : s.params.hdrCheckMode = .all →
      s.rxAt 0 = 0x06 ∨ s.rxAt 1 = 0x10 ∨ s.rxService = s.params.svcRoutingInd.toNat) : ¬ s.headerFails := by
  rintro (⟨hm, h⟩ | ⟨hm, h0, h1, h2⟩)
  · obtain ⟨e0, e1, e2⟩ := hany hm
    simp [e0, e1, e2] at h
  · rcases hall hm with e | e | e
    · simp [e] at h0
    · simp [e] at h1
    · exact h2 e

/-- R110, once the header has passed. -/
theorem firstFailure_of_truncated {s : State} (h6 : 6 ≤ s.rxlen.toNat) (h : ¬ s.headerFails) (h8 : s.rxlen.toNat < 8) :
    s.firstFailure = some .discTruncated := by
  obtain ⟨hlen, hver, hsvc, hall⟩ := not_headerFails_iff.mp h
  simp only [State.firstFailure, if_neg (Nat.not_lt.mpr h6), if_neg hlen, if_neg hver, if_neg hsvc, if_neg hall,
    if_pos h8]

/-- A header that passes is never blamed. -/
theorem firstFailure_ne_header {s : State} {r : ResultCode} (h : ¬ s.headerFails) :
    s.firstFailure = some r → r ≠ .discHdrAll ∧ r ≠ .discHdrLen ∧ r ≠ .discHdrVersion ∧ r ≠ .discHdrService := by
  obtain ⟨hlen, hver, hsvc, hall⟩ := not_headerFails_iff.mp h
  simp only [State.firstFailure, if_neg hlen, if_neg hver, if_neg hsvc, if_neg hall]
  iterate 8
    refine ite_induction (fun o : Option ResultCode => o = some r → _) (fun _ hr => ?_) fun _ => ?_
    · cases hr
      decide
  exact nofun

/-- Settles O38: nothing is read below six bytes, and below eight the header alone. -/
theorem decodeDiscardsShortDatagrams : Obligations.DecodeDiscardsShortDatagrams := by
  unfold Obligations.DecodeDiscardsShortDatagrams
  refine fun s => ⟨fun h6 => ?_, fun h6 h8 hw hany hall => ?_⟩
  · refine exec_decode_of_firstFailure ?_ (if_pos h6)
    rw [State.firstUnwrittenRead, State.decodeReads, if_pos h6]
    rfl
  · exact exec_decode_of_header hw (.inr h8) (firstFailure_of_truncated h6 (not_headerFails hany hall) h8)

/-- Settles O39: the fields before the one blamed are right, so their checks pass. -/
theorem anyHeaderMismatchDiscards : Obligations.AnyHeaderMismatchDiscards := by
  unfold Obligations.AnyHeaderMismatchDiscards
  intro s hany h6 hw
  have h6 : ¬ s.rxlen.toNat < 6 := Nat.not_lt.mpr h6
  simp only [← BitVec.toNat_inj, BitVec.ofNat_eq_ofNat, BitVec.toNat_ofNat, ne_eq, Nat.reducePow, Nat.reduceMod]
  refine ⟨fun h => ?_, fun h0 h => ?_, fun h0 h1 h => ?_⟩
  · exact exec_decode_of_header hw (.inl (.inl ⟨hany, .inl h⟩)) (by simp [State.firstFailure, hany, h6, h])
  · exact exec_decode_of_header hw (.inl (.inl ⟨hany, .inr (.inl h)⟩)) (by simp [State.firstFailure, hany, h6, h0, h])
  · exact exec_decode_of_header hw (.inl (.inl ⟨hany, .inr (.inr h)⟩))
      (by simp [State.firstFailure, hany, h6, h0, h1, h])

/-- Settles O40: under ALL the header fails with all three fields wrong, and with one of them right it is never
blamed. -/
theorem allModeDiscardsOnlyTripleMismatch : Obligations.AllModeDiscardsOnlyTripleMismatch := by
  unfold Obligations.AllModeDiscardsOnlyTripleMismatch
  refine fun s hall h6 hw => ⟨fun h0 h1 h2 => ?_, fun hpass => ?_⟩
  · have h0 : (s.rxAt 0).toNat ≠ 0x06 := fun e => h0 (BitVec.eq_of_toNat_eq e)
    have h1 : (s.rxAt 1).toNat ≠ 0x10 := fun e => h1 (BitVec.eq_of_toNat_eq e)
    exact exec_decode_of_header hw (.inl (.inr ⟨hall, h0, h1, h2⟩))
      (by simp [State.firstFailure, hall, Nat.not_lt.mpr h6, h0, h1, h2])
  · have hh : ¬ s.headerFails := not_headerFails (fun hany => by simp [hall] at hany) fun _ => hpass
    refine ⟨fun h8 => exec_decode_of_header hw (.inr h8) (firstFailure_of_truncated h6 hh h8), fun t ht => ?_⟩
    obtain ⟨-, ⟨r, hr, rfl⟩ | ⟨-, rfl⟩⟩ := exec_decode_eq_next ht
    · exact firstFailure_ne_header hh hr
    · simp

/-! ## Delivery (42_decode R116, R117) -/

theorem stripFragment_toNat (d0 : Byte) : (stripFragment d0).toNat = d0.toNat % 64 := by
  rw [stripFragment, BitVec.toNat_and]
  exact Nat.and_two_pow_sub_one_eq_mod d0.toNat 6

theorem rxMessage_bytes_length {s : State} (h : 1 ≤ s.rxL) : s.rxMessage.bytes.length = s.rxL := by
  simp only [State.rxMessage, List.length_cons, List.length_map, List.length_range']
  omega

/-- The payload after data[0] is the frame's, byte for byte. -/
theorem rxMessage_bytes_getElem? {s : State} {k : Nat} (h1 : 1 ≤ k) (hk : k < s.rxL) :
    s.rxMessage.bytes[k]? = some (s.rxAt (16 + s.rxN + k)) := by
  obtain ⟨j, rfl⟩ := Nat.exists_eq_add_of_le' h1
  have hj : j < s.rxL - 1 := by omega
  have hoff : 17 + s.rxN + j = 16 + s.rxN + (j + 1) := by omega
  simp [State.rxMessage, hj, hoff]

theorem memGet_acceptMessage_payload (m : Message) (s : State) (k : Nat) :
    memGet (acceptMessage m s).payload k = if k < m.bytes.length then m.bytes[k]? else memGet s.payload k := by
  simp [memGet_memPutAll]

/-- Settles O42: a DECODE that ends has discarded or delivered, and what it delivers is `rxMessage`. -/
theorem decodeDeliversAnAcceptedDatagram : Obligations.DecodeDeliversAnAcceptedDatagram := by
  unfold Obligations.DecodeDeliversAnAcceptedDatagram
  refine ⟨fun s t ht hne => ?_, fun s t ht hdel => ?_, fun s hw hacc => ?_⟩
  · obtain ⟨-, ⟨r, -, rfl⟩ | ⟨-, rfl⟩⟩ := exec_decode_eq_next ht
    · rfl
    · exact absurd rfl hne
  · obtain ⟨-, ⟨r, hr, rfl⟩ | ⟨hpass, -⟩⟩ := exec_decode_eq_next ht
    · exact absurd hdel (ne_delivered_of_isDiscard (firstFailure_isDiscard hr))
    · exact firstFailure_eq_none_iff.mp hpass
  · have hnext := exec_decode_of_passed hw (firstFailure_eq_none_iff.mpr hacc)
    have hget := memGet_acceptMessage_payload s.rxMessage s
    obtain ⟨-, -, -, -, -, -, -, hL, -⟩ := hacc
    have hlen : s.rxMessage.bytes.length = s.rxL := rxMessage_bytes_length hL
    refine ⟨_, s.rxMessage, hnext, rfl, commandType_toNat _ _, be16_toNat _ _, be16_toNat _ _, rfl,
      ⟨_, ?_, stripFragment_toNat _⟩, fun k h1 hk => ?_, fun k hk => ?_, rfl, rfl, rfl, rfl, hlen, fun k hk => ?_⟩
    · rw [hget, if_pos (by omega)]
      rfl
    · rw [hget, if_pos (by omega), rxMessage_bytes_getElem? h1 hk]
    · rw [hget, if_neg (by omega)]
    · rw [hget, if_pos (by omega)]

/-! ## The bytes DECODE never reads (42_decode R119) -/

theorem not_unread_of_mem_decodeReads {s : State} {k : Nat} (h : k ∈ s.decodeReads) : ¬ s.unreadByDecode k := by
  simp only [State.decodeReads, ← List.range'_eq_map_range] at h
  rw [State.unreadByDecode]
  split_ifs at h <;>
    simp only [List.mem_append, List.mem_cons, List.not_mem_nil, or_false, List.mem_range'_1] at h <;> omega

/-- `t` has the build, the received length and the bytes of `s`, but for bytes that no DECODE reads. -/
def SameDatagram (s t : State) : Prop :=
  t.params = s.params ∧ t.rxlen = s.rxlen ∧ ∀ k, ¬ s.unreadByDecode k → memGet t.rx k = memGet s.rx k

section
variable {s t : State} (h : SameDatagram s t)
include h

theorem SameDatagram.rxAt {k : Nat} (h1 : k < 4 ∨ k = 6 ∨ k = 7 ∨ 9 + s.rxN ≤ k)
    (h2 : k < 16 + s.rxN + s.rxL) (h3 : k < s.rxlen.toNat) : t.rxAt k = s.rxAt k := by
  obtain ⟨-, -, hget⟩ := h
  have hk : ¬ s.unreadByDecode k := by
    rw [State.unreadByDecode]
    omega
  simp only [State.rxAt, State.byteAt, store_rx, hget k hk]

theorem SameDatagram.rxN (h8 : 8 ≤ s.rxlen.toNat) : t.rxN = s.rxN :=
  congrArg BitVec.toNat (h.rxAt (by omega) (by omega) (by omega))

theorem SameDatagram.rxL (h8 : 8 ≤ s.rxlen.toNat) (h16 : 16 + s.rxN ≤ s.rxlen.toNat) : t.rxL = s.rxL := by
  rw [State.rxL, h.rxN h8, h.rxAt (by omega) (by omega) (by omega), State.rxL]

/-- The bytes read up to a check decide it, and what is read after it. -/
theorem SameDatagram.decodeReads_firstFailure :
    t.decodeReads = s.decodeReads ∧ t.firstFailure = s.firstFailure := by
  obtain ⟨hp, hlen, -⟩ := id h
  by_cases h6 : s.rxlen.toNat < 6
  · simp only [State.decodeReads, State.firstFailure, hlen, if_pos h6, and_self]
  have h0 : t.rxAt 0 = s.rxAt 0 := h.rxAt (by omega) (by omega) (by omega)
  have h1 : t.rxAt 1 = s.rxAt 1 := h.rxAt (by omega) (by omega) (by omega)
  have hsvc : t.rxService = s.rxService := by
    simp only [State.rxService, h.rxAt (k := 2) (by omega) (by omega) (by omega),
      h.rxAt (k := 3) (by omega) (by omega) (by omega)]
  by_cases h8 : s.rxlen.toNat < 8
  · simp only [State.decodeReads, State.firstFailure, State.headerFails, hp, hlen, h0, h1, hsvc, h8, or_true, if_true,
      and_self]
  have h6 : t.rxAt 6 = s.rxAt 6 := h.rxAt (by omega) (by omega) (by omega)
  have hN : t.rxN = s.rxN := h.rxN (by omega)
  by_cases hn : s.rxlen.toNat < 16 + s.rxN
  · simp only [State.decodeReads, State.firstFailure, State.headerFails, hp, hlen, h0, h1, hsvc, h6, hN, if_pos hn,
      and_self]
  have hc2 : t.rxAt (9 + s.rxN) = s.rxAt (9 + s.rxN) := h.rxAt (by omega) (by omega) (by omega)
  have hL : t.rxL = s.rxL := h.rxL (by omega) (by omega)
  simp only [State.decodeReads, State.firstFailure, State.headerFails, hp, hlen, h0, h1, hsvc, h6, hN, hc2, hL,
    and_self]

theorem SameDatagram.firstUnwrittenRead : t.firstUnwrittenRead = s.firstUnwrittenRead := by
  obtain ⟨hreads, -⟩ := h.decodeReads_firstFailure
  obtain ⟨-, -, hget⟩ := h
  rw [State.firstUnwrittenRead, hreads]
  exact List.find?_congr fun k hk => by rw [hget k (not_unread_of_mem_decodeReads hk)]

theorem SameDatagram.rxMessage (hacc : s.accepts) : t.rxMessage = s.rxMessage := by
  obtain ⟨-, -, -, h8, -, h16, -, hL, -, hend⟩ := hacc
  have hat (j : Nat) (h9 : 9 ≤ j) (hj : j < 16 + s.rxL) : t.rxAt (j + s.rxN) = s.rxAt (j + s.rxN) :=
    h.rxAt (by omega) (by omega) (by omega)
  have hrest : (List.range' (17 + s.rxN) (s.rxL - 1)).map t.rxAt = (List.range' (17 + s.rxN) (s.rxL - 1)).map s.rxAt :=
    List.map_congr_left fun k hk => by
      rw [List.mem_range'_1] at hk
      exact h.rxAt (by omega) (by omega) (by omega)
  simp only [State.rxMessage, h.rxN h8, h.rxL h8 h16, hrest, hat 10 (by omega) (by omega), hat 11 (by omega) (by omega),
    hat 12 (by omega) (by omega), hat 13 (by omega) (by omega), hat 14 (by omega) (by omega),
    hat 15 (by omega) (by omega), hat 16 (by omega) (by omega)]

end

/-- Settles O46: `execDecode_eq` for both stores, whose reads, failing check and message are the same. -/
theorem decodeIgnoresUnreadBytes : Obligations.DecodeIgnoresUnreadBytes := by
  unfold Obligations.DecodeIgnoresUnreadBytes
  intro s rx' hget
  have h : SameDatagram s { s with rx := rx' } := ⟨rfl, rfl, hget⟩
  obtain ⟨-, hfail⟩ := h.decodeReads_firstFailure
  rw [exec, exec, execDecode_eq, execDecode_eq, h.firstUnwrittenRead, hfail]
  cases s.firstUnwrittenRead with
  | some k =>
    refine ⟨fun _ ht => ?_, fun _ hf => hf⟩
    cases ht
  | none =>
    cases hf : s.firstFailure with
    | some r =>
      refine ⟨fun t ht => ?_, fun _ hf => ?_⟩
      · cases ht
        rfl
      · cases hf
    | none =>
      rw [h.rxMessage (firstFailure_eq_none_iff.mp hf)]
      refine ⟨fun t ht => ?_, fun _ hf => ?_⟩
      · cases ht
        rfl
      · cases hf

end Sys2Proof.Machine
end

section
/-! PROOFS. The statements of 43_encode: the length check, the datagram byte by byte, and the round trip through DECODE.
They rest on `encodedDatagram_map_toNat`, which says once what bytes the datagram has. -/

namespace Sys2Proof.Machine

/-! ## The length check (43_encode R122) -/

/-- Settles O49: the length check comes first. -/
theorem encodeRejectsBadLength : Obligations.EncodeRejectsBadLength := by
  unfold Obligations.EncodeRejectsBadLength
  exact fun s hbad => if_pos (encodeLenBad_iff.mpr hbad)

/-! ## The datagram (43_encode R123 to R127) -/

/-- The datagram ENCODE builds from the message in the MSG registers. -/
def State.encodedDatagram (s : State) : List Byte :=
  encodeHeader s ++ encodeData s.msgCt ((List.range s.msgLen.toNat).map s.p)

@[simp] theorem encodedDatagram_length (s : State) : s.encodedDatagram.length = 16 + s.msgLen.toNat := by
  simp [State.encodedDatagram]

/-- ENCODE's total length fits its 16 bits, whatever MSG_LEN is. -/
theorem total_toNat (s : State) : (BitVec.ofNat 16 (16 + s.msgLen.toNat)).toNat = 16 + s.msgLen.toNat := by
  have := s.msgLen.isLt
  rw [BitVec.toNat_ofNat]
  omega

/-- R123 to R127: the bytes before the payload. -/
theorem encodeHeader_map_toNat (s : State) : (encodeHeader s).map BitVec.toNat = (List.range 16).map s.encodedByte := by
  simp [-BitVec.toNat_ofNat, encodeHeader, bytes16, hi8_toNat, lo8_toNat, total_toNat, pciOf_toNat, fixedLen,
    List.range_succ, State.encodedByte, headerLen, protocolVersion, msgCodeLDataInd, encAddinfoLen]

theorem encodedByte_payload (s : State) {k : Nat} (h1 : 1 ≤ k) : s.encodedByte (16 + k) = (s.p k).toNat := by
  obtain ⟨j, rfl⟩ := Nat.exists_eq_add_of_le' h1
  simp [State.encodedByte, show 16 + (j + 1) = j + 17 by omega]

/-- R127: data[0] carries the command type's low bits, and the bytes after it are the payload's. -/
theorem encodeData_map_toNat (s : State) (n : Nat) :
    (encodeData s.msgCt ((List.range n).map s.p)).map BitVec.toNat =
      (List.range n).map fun k => s.encodedByte (16 + k) := by
  cases n with
  | zero => rfl
  | succ n =>
    have hdata0 : (data0Of s.msgCt (s.p 0)).toNat = s.encodedByte 16 := by
      rw [data0Of_toNat, Nat.add_comm]
      rfl
    simp [List.range_succ_eq_map, encodeData, hdata0, encodedByte_payload]

/-- Every byte of the datagram is the one 43_encode gives. -/
theorem encodedDatagram_map_toNat (s : State) :
    s.encodedDatagram.map BitVec.toNat = (List.range (16 + s.msgLen.toNat)).map s.encodedByte := by
  rw [State.encodedDatagram, List.map_append, encodeHeader_map_toNat, encodeData_map_toNat, List.range_add,
    List.map_append, List.map_map]
  rfl

theorem encodedDatagram_getElem? {s : State} {k : Nat} (hk : k < 16 + s.msgLen.toNat) :
    ∃ b, s.encodedDatagram[k]? = some b ∧ b.toNat = s.encodedByte k := by
  have h := congrArg (·[k]?) (encodedDatagram_map_toNat s)
  simpa [hk] using h

theorem memGet_payload_of_written {s : State} {n k : Nat} (h : Written s .payload 0 n) (hk : k < n) :
    memGet s.payload k = some (s.p k) :=
  memGet_of_written (st := .payload) (by simpa using h k hk)

theorem readBytes_payload_of_written {s : State} {n : Nat} (h : Written s .payload 0 n) :
    readBytes s .payload 0 n = .ok ((List.range n).map s.p) :=
  readBytes_ok.mpr ⟨by simp, fun k hk => by simp [memGet_payload_of_written h hk, hk]⟩

/-- ENCODE of a message of legal length, every payload byte written, commits its datagram. -/
theorem exec_encode_of_written {s : State} (h1 : 1 ≤ s.msgLen.toNat)
    (hmax : s.msgLen.toNat ≤ s.params.maxPayload.toNat) (hw : Written s .payload 0 s.msgLen.toNat) :
    exec .encode s = .next (complete .encoded (commitDatagram s.encodedDatagram s)) := by
  have hgood : ¬ encodeLenBad s = true := by
    rw [encodeLenBad_iff]
    omega
  rw [exec, execEncode, if_neg hgood, readBytes_payload_of_written hw]
  rfl

/-- Settles O48: ENCODE commits its datagram from TX[0], whose bytes `encodedDatagram_getElem?` gives. -/
theorem encodeBuildsTheDatagram : Obligations.EncodeBuildsTheDatagram := by
  unfold Obligations.EncodeBuildsTheDatagram
  refine ⟨by decide, fun s h1 hmax hw => ?_⟩
  have hnext := exec_encode_of_written h1 hmax hw
  have hlen := encodedDatagram_length s
  have hbyte := @encodedDatagram_getElem? s
  -- The frame below is an equation of records: it holds for any bytes, and must not evaluate these.
  generalize s.encodedDatagram = datagram at hnext hlen hbyte
  refine ⟨_, hnext, rfl, ?_, fun k hk => ?_, fun k hk => memGet_memPutAll_of_le (by omega)⟩
  · rw [complete_txlen, commitDatagram_txlen, hlen, total_toNat]
  · rw [complete_tx, commitDatagram_tx, memGet_memPutAll, if_pos (by omega)]
    exact hbyte hk

/-! ## DECODE of the datagram (43_encode R129) -/

/-- ENCODE's control_2 has a group destination under both layouts. -/
theorem dat_or_datMask (l : CtrlLayout) (c2 : Byte) : dat l (c2 ||| datMask l) = true := by
  have habs : (c2 ||| datMask l) &&& datMask l = datMask l := by
    ext i hi
    simp +contextual
  rw [dat, habs]
  cases l <;> rfl

/-- RXBUF and RXLEN of `d` hold the datagram ENCODE builds from the message of `s`, under one build. -/
structure HoldsEncoded (s d : State) : Prop where
  params : d.params = s.params
  rxlen : d.rxlen.toNat = 16 + s.msgLen.toNat
  bytes : ∀ k, k < 16 + s.msgLen.toNat → ∃ b, memGet d.rx k = some b ∧ b.toNat = s.encodedByte k

section
variable {s d : State} (h : HoldsEncoded s d)
include h

theorem HoldsEncoded.rxAt {k : Nat} (hk : k < 16 + s.msgLen.toNat) : (d.rxAt k).toNat = s.encodedByte k := by
  obtain ⟨b, hb, hval⟩ := h.bytes k hk
  rw [State.rxAt, byteAt_of_memGet (st := .rx) hb, hval]

theorem HoldsEncoded.rxN : d.rxN = 0 := h.rxAt (by omega)

theorem HoldsEncoded.rxL : d.rxL = s.msgLen.toNat := by
  rw [State.rxL, h.rxN]
  exact h.rxAt (by omega)

theorem HoldsEncoded.rxService : d.rxService = d.params.svcRoutingInd.toNat := by
  have h2 : (d.rxAt 2).toNat = s.params.svcRoutingInd.toNat / 256 := h.rxAt (by omega)
  have h3 : (d.rxAt 3).toNat = s.params.svcRoutingInd.toNat % 256 := h.rxAt (by omega)
  rw [State.rxService, h2, h3, h.params]
  omega

/-- Control_2 says that the destination is a group address. -/
theorem HoldsEncoded.dat : dat d.params.ctrlLayout (d.rxAt 9) = true := by
  have h9 : d.rxAt 9 = s.params.encCtrl2 ||| datMask s.params.ctrlLayout :=
    BitVec.eq_of_toNat_eq (h.rxAt (by omega))
  rw [h9, h.params, dat_or_datMask]

/-- The datagram meets the acceptance condition of 42_decode R118. -/
theorem HoldsEncoded.accepts (h1 : 1 ≤ s.msgLen.toNat) (hmax : s.msgLen.toNat ≤ s.params.maxPayload.toNat) :
    d.accepts := by
  have hlen : (d.rxAt 0).toNat = 0x06 := h.rxAt (by omega)
  have hver : (d.rxAt 1).toNat = 0x10 := h.rxAt (by omega)
  have hcode : (d.rxAt 6).toNat = 0x29 := h.rxAt (by omega)
  rw [State.accepts, h.rxN, h.rxL, h.rxlen]
  exact ⟨by omega, fun _ => ⟨hlen, hver, h.rxService⟩, fun _ => .inl hlen, by omega, hcode, by omega, h.dat, h1,
    h.params ▸ hmax, by omega⟩

/-- DECODE reads no byte beyond the datagram. -/
theorem HoldsEncoded.firstUnwrittenRead : d.firstUnwrittenRead = none := by
  refine firstUnwrittenRead_eq_none_iff.mpr fun k hk => ?_
  have hread := not_unread_of_mem_decodeReads hk
  rw [State.unreadByDecode, h.rxlen] at hread
  obtain ⟨b, hb, -⟩ := h.bytes k (by omega)
  exact Option.isSome_of_mem hb

/-- The command type put together again from pci and data[0]. -/
theorem HoldsEncoded.msgCt (h1 : 1 ≤ s.msgLen.toNat) :
    (d.rxAt 15).toNat % 4 * 4 + (d.rxAt 16).toNat / 64 = s.msgCt.toNat := by
  have h15 : (d.rxAt 15).toNat = s.params.encTpci.toNat * 4 + s.msgCt.toNat / 4 := h.rxAt (by omega)
  have h16 : (d.rxAt 16).toNat = (s.p 0).toNat % 64 + s.msgCt.toNat % 4 * 64 := h.rxAt (by omega)
  have := s.msgCt.isLt
  omega

theorem HoldsEncoded.msgSrc : (d.rxAt 10).toNat * 256 + (d.rxAt 11).toNat = s.msgSrc.toNat := by
  have h10 : (d.rxAt 10).toNat = s.msgSrc.toNat / 256 := h.rxAt (by omega)
  have h11 : (d.rxAt 11).toNat = s.msgSrc.toNat % 256 := h.rxAt (by omega)
  omega

theorem HoldsEncoded.msgDst : (d.rxAt 12).toNat * 256 + (d.rxAt 13).toNat = s.msgDst.toNat := by
  have h12 : (d.rxAt 12).toNat = s.msgDst.toNat / 256 := h.rxAt (by omega)
  have h13 : (d.rxAt 13).toNat = s.msgDst.toNat % 256 := h.rxAt (by omega)
  omega

/-- C7: P[0] comes back with its top two bits cleared. -/
theorem HoldsEncoded.rxAt_data0 (h1 : 1 ≤ s.msgLen.toNat) : (d.rxAt 16).toNat % 64 = (s.p 0).toNat % 64 := by
  have h16 : (d.rxAt 16).toNat = (s.p 0).toNat % 64 + s.msgCt.toNat % 4 * 64 := h.rxAt (by omega)
  omega

/-- P[k] comes back as it was, but for k = 0. -/
theorem HoldsEncoded.rxAt_payload {k : Nat} (h1 : 1 ≤ k) (hk : k < s.msgLen.toNat) : d.rxAt (16 + k) = s.p k :=
  BitVec.eq_of_toNat_eq ((h.rxAt (by omega)).trans (encodedByte_payload s h1))

end

/-- Settles O52: ENCODE's bytes (O48) meet DECODE's acceptance condition, and what DECODE delivers of them (O42) is the
message. -/
theorem encodeThenDecodeDeliversTheMessage : Obligations.EncodeThenDecodeDeliversTheMessage := by
  unfold Obligations.EncodeThenDecodeDeliversTheMessage
  intro s h1 hmax hw
  obtain ⟨-, build⟩ := encodeBuildsTheDatagram
  obtain ⟨t, ht, htres, htxlen, hbytes, -⟩ := build s h1 hmax hw
  refine ⟨t, ht, by rw [htres], fun d hparams hrxlen hrx => ?_⟩
  have h : HoldsEncoded s d :=
    ⟨hparams, by rw [hrxlen, htxlen], fun k hk => by rw [hrx k (by omega)]; exact hbytes k hk⟩
  obtain ⟨-, -, deliver⟩ := decodeDeliversAnAcceptedDatagram
  obtain ⟨u, m, hu, hures, hct, hsrc, hdst, hlen, ⟨b, hb, hb0⟩, hrest, -⟩ :=
    deliver d h.firstUnwrittenRead (h.accepts h1 hmax)
  rw [h.rxN] at hct hsrc hdst hb0 hrest
  rw [h.rxL] at hlen hrest
  refine ⟨u, hu, by rw [hures], BitVec.eq_of_toNat_eq (hct.trans (h.msgCt h1)),
    BitVec.eq_of_toNat_eq (hsrc.trans h.msgSrc), BitVec.eq_of_toNat_eq (hdst.trans h.msgDst), BitVec.eq_of_toNat_eq hlen,
    ⟨b, hb, hb0.trans (h.rxAt_data0 h1)⟩, fun k hk1 hk => ?_⟩
  rw [hrest k hk1 hk, h.rxAt_payload hk1 hk, memGet_payload_of_written hw hk]

end Sys2Proof.Machine
end

section
/-! PROOFS. The statements of 60_exceptions: what DECODE leaves unchanged when it discards and when it delivers, and which
host accesses are a hazard while a command is pending. -/

namespace Sys2Proof.Machine

/-! ## Frame of DECODE (60_exceptions R137) -/

theorem class_eq_discard_of_isDiscard {r : ResultCode} (h : r.isDiscard = true) :
    classOfBits (classBits r.code) = some .discard :=
  eq_of_beq h

/-- The commit of an accepted datagram leaves every payload byte from data_len on. -/
theorem memGet_acceptMessage_payload_of_le {s : State} {k : Nat} (hs : s.accepts) (hk : s.rxL ≤ k) :
    memGet (acceptMessage s.rxMessage s).payload k = memGet s.payload k := by
  obtain ⟨-, -, -, -, -, -, -, hL, -⟩ := hs
  rw [memGet_acceptMessage_payload, rxMessage_bytes_length hL, if_neg (Nat.not_lt.mpr hk)]

/-- Settles O45: a DECODE that ends has discarded, which is `complete` alone, or delivered an accepted datagram, which
writes the payload below data_len and neither of the other stores. -/
theorem decodeFrame : Obligations.DecodeFrame := by
  unfold Obligations.DecodeFrame
  intro s t ht
  obtain ⟨-, ⟨r, hr, rfl⟩ | ⟨hpass, rfl⟩⟩ := exec_decode_eq_next ht
  · have hdisc : r.isDiscard = true := firstFailure_isDiscard hr
    exact ⟨fun _ => ⟨rfl, class_eq_discard_of_isDiscard hdisc⟩,
      fun hdel => absurd hdel (ne_delivered_of_isDiscard hdisc),
      fun _ => readByte_congr rfl, fun _ => readByte_congr rfl, fun _ _ => readByte_congr rfl⟩
  · refine ⟨fun hne => absurd rfl hne, fun _ => rfl,
      fun _ => readByte_congr rfl, fun _ => readByte_congr rfl, fun k hk => readByte_congr ?_⟩
    have hk : s.rxL ≤ k := hk.resolve_left fun hne => hne rfl
    exact memGet_acceptMessage_payload_of_le (firstFailure_eq_none_iff.mp hpass) hk

/-! ## Host accesses while a command is pending (60_exceptions R141) -/

/-- A read of any address but STATUS while BUSY = 1 is the hazard of R156. -/
theorem hostRead_of_busy {a : Addr} {s : State} (hs : s.busy = true) (ha : a ≠ 0x0001) :
    hostRead a s = .fault .hazardBusy := by
  rcases hostRead_cases a s with ⟨-, -, e⟩ | ⟨hno, -⟩
  · exact e
  · exact absurd (hno.resolve_left (by simp [hs])) ha

/-- Settles O14: STATUS reads 0x80 under the invariant, and every other access meets the hazard. -/
theorem busyAllowsOnlyStatusReads : Obligations.BusyAllowsOnlyStatusReads := by
  unfold Obligations.BusyAllowsOnlyStatusReads
  refine fun s hp => ⟨fun hs => ?_, fun _ ha => hostRead_of_busy hp ha, hostWrite_of_busy hp⟩
  exact hostRead_of_readPlace (.inr rfl) (congrArg Except.ok (status_of_busy hs hp))

end Sys2Proof.Machine
end

section
/-! PROOFS. The statements of 70_reset_and_hazards: what the reset input leaves of a state. -/

namespace Sys2Proof.Machine

/-! ## The reset input (70_reset_and_hazards R151) -/

theorem step_of_reset {s : State} {rest : List Turn} (h : s.agenda = .reset :: rest) :
    step s = .next (takeReset (s.withAgenda rest)) := by
  rw [step, h]

/-- Reset clears the written shadow of every byte of every store. -/
theorem memGet_store_takeReset (s : State) (st : Store) (k : Nat) : memGet ((takeReset s).store st) k = none := by
  cases st <;> simp [memGet]

/-- Settles O12: the step is `takeReset`, which leaves every store without a written byte. -/
theorem resetTakesEveryRegisterToItsResetValue : Obligations.ResetTakesEveryRegisterToItsResetValue := by
  unfold Obligations.ResetTakesEveryRegisterToItsResetValue
  refine fun s rest h => ⟨_, step_of_reset h, rfl, takeReset_status _, rfl, rfl, rfl, rfl, rfl, rfl, rfl, rfl, rfl,
    fun st k => ?_, rfl⟩
  have hclear := memGet_store_takeReset (s.withAgenda rest) st k
  exact ⟨hclear, st, k, readByte_error.mpr ⟨hclear, rfl⟩⟩

end Sys2Proof.Machine
end

section
/-! PROOFS. The statements of 30_encoding: the rows of the command map, and host programs as access words. -/

namespace Sys2Proof.Machine

/-! ## Access words (30_encoding R90) -/

/-- The fields of an access word as a number: bits 29..24 add nothing. -/
theorem accessWord_toNat (kind : BitVec 2) (a : Addr) (v : Byte) :
    (accessWord kind a v).toNat = kind.toNat * 2 ^ 30 + a.toNat * 2 ^ 8 + v.toNat := by
  simp only [accessWord, append_toNat, BitVec.ofNat_eq_ofNat, BitVec.toNat_ofNat]
  omega

/-- Each field read out of an access word. -/
theorem accessWord_fields (kind : BitVec 2) (a : Addr) (v : Byte) :
    (accessWord kind a v).extractLsb' 24 6 = 0 ∧ (accessWord kind a v).extractLsb' 30 2 = kind
    ∧ (accessWord kind a v).extractLsb' 8 16 = a ∧ (accessWord kind a v).extractLsb' 0 8 = v := by
  have := kind.isLt
  have := a.isLt
  have := v.isLt
  simp only [← BitVec.toNat_inj, extract_toNat, accessWord_toNat, BitVec.ofNat_eq_ofNat, BitVec.toNat_ofNat]
  omega

/-- A word whose bits 29..24 are zero is the access word of its other fields. -/
theorem accessWord_of_fields {w : BitVec 32} {kind : BitVec 2} (h0 : w.extractLsb' 24 6 = 0)
    (hk : w.extractLsb' 30 2 = kind) : accessWord kind (w.extractLsb' 8 16) (w.extractLsb' 0 8) = w := by
  subst hk
  have := w.isLt
  simp only [← BitVec.toNat_inj, extract_toNat, accessWord_toNat, BitVec.ofNat_eq_ofNat, BitVec.toNat_ofNat] at h0 ⊢
  omega

theorem decodeAccess_encodeAccess (a : Access) : decodeAccess (encodeAccess a) = some a := by
  cases a with
  | wr a v =>
    obtain ⟨hzero, hkind, haddr, hvalue⟩ := accessWord_fields 0b01 a v
    simp only [decodeAccess, encodeAccess, hzero, hkind, haddr, hvalue]
    rfl
  | rd a e =>
    obtain ⟨hzero, hkind, haddr, hvalue⟩ := accessWord_fields 0b10 a e
    simp only [decodeAccess, encodeAccess, hzero, hkind, haddr, hvalue]
    rfl
  | wait => rfl

/-- A word that stands for an access is that access's word: each branch of the decoder fixes every field. -/
theorem encodeAccess_of_decodeAccess {w : BitVec 32} {a : Access} (h : decodeAccess w = some a) : encodeAccess a = w := by
  simp only [decodeAccess] at h
  split_ifs at h with hzero hwr hrd hwait <;> cases h
  · exact accessWord_of_fields (not_not.mp hzero) hwr
  · exact accessWord_of_fields (not_not.mp hzero) hrd
  · obtain ⟨hkind, haddr, hvalue⟩ := hwait
    have hw := accessWord_of_fields (not_not.mp hzero) hkind
    rwa [haddr, hvalue] at hw

theorem decodeProgram_encodeProgram (p : List Access) : decodeProgram (encodeProgram p) = some p := by
  induction p with
  | nil => rfl
  | cons a p ih =>
    rw [encodeProgram] at ih ⊢
    simp only [List.map_cons, decodeProgram, decodeAccess_encodeAccess, ih]

/-- A list of words that stands for a program is that program's encoding. -/
theorem encodeProgram_of_decodeProgram {ws : List (BitVec 32)} {p : List Access} (h : decodeProgram ws = some p) :
    encodeProgram p = ws := by
  induction ws generalizing p with
  | nil =>
    cases h
    rfl
  | cons w ws ih =>
    simp only [decodeProgram] at h
    split at h
    · next a rest ha hrest =>
      cases h
      exact congrArg₂ List.cons (encodeAccess_of_decodeAccess ha) (ih hrest)
    · cases h

/-- Settles O3: the word of each access is `accessWord` of its fields, and the decoder is undone access by access. -/
theorem accessWordsDecodeEncodeAgree : Obligations.AccessWordsDecodeEncodeAgree := by
  unfold Obligations.AccessWordsDecodeEncodeAgree
  exact ⟨fun a v => ⟨accessWord_toNat 0b01 a v, accessWord_toNat 0b10 a v⟩, by decide, decodeProgram_encodeProgram,
    fun _ _ => encodeProgram_of_decodeProgram⟩

/-! ## The command map (30_encoding R63, R65) -/

/-- Settles O1: the rows by evaluation, CLASS for each command. -/
theorem commandMapRows : Obligations.CommandMapRows := by
  unfold Obligations.CommandMapRows
  refine ⟨rfl, rfl, rfl, rfl, rfl, rfl, rfl, rfl, rfl, rfl, rfl, rfl, rfl, fun i => ?_⟩
  cases i <;> rfl

end Sys2Proof.Machine
end

section
/-! PROOFS. The statements about every step: what a command that ends has done, which turn a step takes, the invariants,
the careful host and the end of a run. They rest on `exec_eq_next` and `step_eq_next`, which say once what a command and
a step can do. -/

namespace Sys2Proof.Machine

/-! ## Commands that end (60_exceptions R132) -/

/-- What a command that ends has done to the state. -/
inductive Ended (s : State) : Instr → State → Prop
  | discarded {r : ResultCode} : r.isDiscard = true → Ended s .decode (complete r s)
  | delivered (m : Message) : Ended s .decode (acceptMessage m s)
  | encodeFailed : Ended s .encode (complete .errEncLen { s with txlen := 0 })
  | encoded : 1 ≤ s.msgLen.toNat → s.msgLen.toNat ≤ s.params.maxPayload.toNat → Written s .payload 0 s.msgLen.toNat →
      Ended s .encode (complete .encoded (commitDatagram s.encodedDatagram s))
  | dptFailed {i : Instr} : dptNeed i ≠ none → Ended s i (complete .errDptLen s)
  | dptDone {i : Instr} (v : BitVec 32) : dptNeed i ≠ none → Ended s i (complete .dptOk (setDptResult v s))
  | float16Done (v : BitVec 32) : Ended s .dptFloat16 (complete .dptOk (commitFloat16 v s))

theorem written_of_readBytes_ok {s : State} {st : Store} {off n : Nat} {bs : List Byte}
    (h : readBytes s st off n = .ok bs) : Written s st off n := by
  obtain ⟨hlen, hget⟩ := readBytes_ok.mp h
  intro k hk
  rw [hget k hk]
  simp [hlen, hk]

/-- Everything a command that ends can have done. -/
theorem exec_eq_next {i : Instr} {s t : State} (h : exec i s = .next t) : Ended s i t := by
  cases hi : dptNeed i with
  | some n =>
    have hdpt : dptNeed i ≠ none := by simp [hi]
    rcases execDpt_cases hi s with ⟨-, e⟩ | ⟨-, -, v, e⟩ | ⟨-, rfl, v, e⟩ | ⟨-, k, -, -, -, e⟩ <;>
      simp only [e, Host.Outcome.next.injEq, reduceCtorEq] at h <;> subst h
    · exact .dptFailed hdpt
    · exact .dptDone v hdpt
    · exact .float16Done v
  | none =>
    cases i <;> simp only [dptNeed, reduceCtorEq] at hi
    case decode =>
      obtain ⟨-, ⟨r, hr, rfl⟩ | ⟨-, rfl⟩⟩ := exec_decode_eq_next h
      · exact .discarded (firstFailure_isDiscard hr)
      · exact .delivered _
    case encode =>
      rcases execEncode_cases s with ⟨-, e⟩ | ⟨hgood, bytes, hr, -⟩ | ⟨-, k, -, -, e⟩
      · rw [exec, e, Host.Outcome.next.injEq] at h
        subst h
        exact .encodeFailed
      · have hlen := mt encodeLenBad_iff.mpr (Bool.eq_false_iff.mp hgood)
        have h1 : 1 ≤ s.msgLen.toNat := by omega
        have hmax : s.msgLen.toNat ≤ s.params.maxPayload.toNat := by omega
        have hw := written_of_readBytes_ok hr
        rw [exec_encode_of_written h1 hmax hw, Host.Outcome.next.injEq] at h
        subst h
        exact .encoded h1 hmax hw
      · simp [exec, e] at h

/-- A command that ends leaves BUSY = 0 and the build. -/
theorem Ended.idle {s t : State} {i : Instr} (h : Ended s i t) : t.pending = none ∧ t.params = s.params := by
  cases h <;> exact ⟨rfl, rfl⟩

/-- Settles O53: `exec_cases` allows no refusal and no busy hazard, and each way to end has its own code. -/
theorem everyCommandEndsInOneOutcome : Obligations.EveryCommandEndsInOneOutcome := by
  unfold Obligations.EveryCommandEndsInOneOutcome
  intro i s
  refine ⟨fun r => ?_, ?_, fun t h => ⟨?_, ?_⟩⟩
  · rcases exec_cases i s with ⟨t, e, -⟩ | ⟨st, k, -, e⟩ <;> simp [e]
  · rcases exec_cases i s with ⟨t, e, -⟩ | ⟨st, k, -, e⟩ <;> simp [e]
  · obtain ⟨hidle, -⟩ := (exec_eq_next h).idle
    exact busy_eq_false.mpr hidle
  · cases exec_eq_next h with
    | discarded hr => exact ⟨fun _ => .inr (class_eq_discard_of_isDiscard hr), nofun, fun hi => absurd rfl hi⟩
    | delivered m => exact ⟨fun _ => .inl rfl, nofun, fun hi => absurd rfl hi⟩
    | encodeFailed => exact ⟨nofun, fun _ => .inr rfl, fun hi => absurd rfl hi⟩
    | encoded => exact ⟨nofun, fun _ => .inl rfl, fun hi => absurd rfl hi⟩
    | dptFailed hi => exact ⟨fun e => absurd (e ▸ rfl) hi, fun e => absurd (e ▸ rfl) hi, fun _ => .inr rfl⟩
    | dptDone v hi => exact ⟨fun e => absurd (e ▸ rfl) hi, fun e => absurd (e ▸ rfl) hi, fun _ => .inl rfl⟩
    | float16Done v => exact ⟨nofun, nofun, fun _ => .inl rfl⟩

/-! ## The turn a step takes (00_scope R13, 10_state R16) -/

theorem step_of_engine {s : State} {rest : List Turn} (h : s.agenda = .engine :: rest) :
    step s = engineStep (s.withAgenda rest) := by
  rw [step, h]

theorem step_of_nil {s : State} (h : s.agenda = []) : step s = engineStep s := by
  rw [step, h]

theorem step_of_read {s : State} {a : Addr} {e : Byte} {rest : List Turn} (h : s.agenda = .host (.rd a e) :: rest) :
    step s = hostRead a (s.withAgenda rest) := by
  rw [step, h]

/-- The engine moves in a waiting host's turn, which is kept (70_reset_and_hazards R163). -/
theorem step_of_wait_busy {s : State} {rest : List Turn} (h : s.agenda = .host .wait :: rest) (hb : s.busy = true) :
    step s = engineStep s := by
  simp only [step, h, hb, if_true]

theorem step_of_wait_idle {s : State} {rest : List Turn} (h : s.agenda = .host .wait :: rest) (hb : s.busy = false) :
    step s = .next (s.withAgenda rest) := by
  simp only [step, h, hb, Bool.false_eq_true, if_false]

theorem busy_of_pending {s : State} {c : Byte} (h : s.pending = some c) : s.busy = true := by
  simp [State.busy, h]

theorem engineStep_of_idle {s : State} (h : s.pending = none) : engineStep s = .next s := by
  rw [engineStep, h]

/-- A byte in no row of the command map ends with ERR_ILLEGAL_CMD (30_encoding R66). -/
theorem engineStep_of_illegal {s : State} {c : Byte} (hp : s.pending = some c) (hc : ∀ i, encode i ≠ c) :
    engineStep s = .next (complete .errIllegalCmd s) := by
  rcases engineStep_cases s with ⟨hn, -⟩ | ⟨c', i, hp', hd, -⟩ | ⟨c', e, -, -, h⟩
  · simp [hp] at hn
  · obtain rfl : c = c' := Option.some.inj (hp.symm.trans hp')
    exact absurd (encode_of_decode hd) (hc i)
  · exact h

/-- Settles O7: each turn that moves the engine runs the command latched. -/
theorem stepRunsTheDecodedCommand : Obligations.StepRunsTheDecodedCommand := by
  unfold Obligations.StepRunsTheDecodedCommand
  intro s c i rest hp hd
  refine ⟨fun ha => ?_, fun ha => ?_, fun ha => ?_⟩
  · exact (step_of_engine ha).trans (engineStep_of_decode (s := s.withAgenda rest) hp hd)
  · exact (step_of_wait_busy ha (busy_of_pending hp)).trans (engineStep_of_decode hp hd)
  · exact (step_of_nil ha).trans (engineStep_of_decode hp hd)

/-- Settles O8: each turn's own equation, the engine's with nothing pending. -/
theorem stepTakesTheFirstTurn : Obligations.StepTakesTheFirstTurn := by
  unfold Obligations.StepTakesTheFirstTurn
  refine fun s rest => ⟨fun a e => step_of_read, fun a v => step_of_write, fun hp ha => ?_, fun hp ha => ?_,
    fun hp ha => ?_⟩
  · exact step_of_wait_idle ha (busy_eq_false.mpr hp)
  · exact (step_of_engine ha).trans (engineStep_of_idle (s := s.withAgenda rest) hp)
  · exact (step_of_nil ha).trans (engineStep_of_idle hp)

/-- Settles O9: `engineStep_of_illegal` in each turn that moves the engine. -/
theorem illegalCommandWritesStatusOnly : Obligations.IllegalCommandWritesStatusOnly := by
  unfold Obligations.IllegalCommandWritesStatusOnly
  intro s c hp hc
  have hend := engineStep_of_illegal hp hc
  refine ⟨_, hend, rfl, by rw [complete_status]; rfl, fun ha => (step_of_nil ha).trans hend,
    fun rest => ⟨fun ha => ?_, fun ha => ?_⟩⟩
  · exact (step_of_engine ha).trans (engineStep_of_illegal (s := s.withAgenda rest) hp hc)
  · exact (step_of_wait_busy ha (busy_of_pending hp)).trans hend

/-! ## Everything a step does -/

/-- What a step that is not reset does to a state whose turn, if it was used up, has been taken. -/
inductive Moved (s : State) : State → Prop
  | ran {c : Byte} {i : Instr} {t : State} : s.pending = some c → decode c = .ok i → exec i s = .next t → Moved s t
  | illegal : Moved s (complete .errIllegalCmd s)
  | read (a : Addr) (v : Byte) : Moved s (emit (.read a v) s)
  | wrote (a : Addr) (v : Byte) : s.pending = none → Moved s (writePlace v s (placeOf a))
  | held : Moved s s

theorem Moved.of_engineStep {s t : State} (h : engineStep s = .next t) : Moved s t := by
  rcases engineStep_cases s with ⟨-, e⟩ | ⟨c, i, hp, hd, e⟩ | ⟨c, d, -, -, e⟩
  · rw [e, Host.Outcome.next.injEq] at h
    exact h ▸ .held
  · exact .ran hp hd (e ▸ h)
  · rw [e, Host.Outcome.next.injEq] at h
    exact h ▸ .illegal

/-- Everything a step that answers a next state can have done: reset, or one of the moves. -/
theorem step_eq_next {s t : State} (h : step s = .next t) :
    (∃ rest, s.agenda = .reset :: rest ∧ t = takeReset (s.withAgenda rest)) ∨ ∃ turns, Moved (s.withAgenda turns) t := by
  rcases step_cases s with ⟨-, e⟩ | ⟨rest, -, e⟩ | ⟨rest, ha, e⟩ | ⟨a, x, rest, -, e⟩ | ⟨a, v, rest, -, e⟩
    | ⟨rest, -, -, e⟩ | ⟨rest, -, -, e⟩ <;> rw [e] at h
  · exact .inr ⟨s.agenda, .of_engineStep h⟩
  · exact .inr ⟨rest, .of_engineStep h⟩
  · exact .inl ⟨rest, ha, (Host.Outcome.next.inj h).symm⟩
  · obtain ⟨v, rfl, -⟩ := hostRead_again h
    exact .inr ⟨rest, .read a v⟩
  · obtain ⟨hp, rfl⟩ := hostWrite_eq_next h
    exact .inr ⟨rest, .wrote a v hp⟩
  · exact .inr ⟨s.agenda, .of_engineStep h⟩
  · exact .inr ⟨rest, Host.Outcome.next.inj h ▸ .held⟩

/-! ## Invariants (10_state R17, R22, R23; 00_scope R5) -/

theorem Moved.params {s t : State} (h : Moved s t) : t.params = s.params := by
  cases h with
  | ran _ _ he =>
    obtain ⟨-, hparams⟩ := (exec_eq_next he).idle
    exact hparams
  | wrote a v _ =>
    obtain ⟨hparams, -⟩ := writePlace_frame v s (placeOf a)
    exact hparams
  | illegal | read | held => rfl

/-- Settles O57: neither reset nor any move changes the parameters, and the CFG bytes are computed from them. -/
theorem noStepChangesTheBuild : Obligations.NoStepChangesTheBuild := by
  unfold Obligations.NoStepChangesTheBuild
  intro s t h
  have hparams : t.params = s.params := by
    rcases step_eq_next h with ⟨rest, -, rfl⟩ | ⟨turns, hm⟩
    · rfl
    · exact hm.params
  exact ⟨hparams, fun k => congrArg (fun p => Except.ok (cfgByte p k)) hparams⟩

theorem Moved.memWf {s t : State} (h : Moved s t) (hs : s.memWf = true) : t.memWf = true := by
  cases h with
  | ran _ _ he => exact exec_memWf hs he
  | wrote a v _ => exact writePlace_memWf v hs (placeOf_inBuffers a)
  | illegal | read | held => exact hs

/-- RESULT = NONE while BUSY = 1: of the moves only a CMD write leaves a command pending that was not. -/
theorem Moved.result {s t : State} (h : Moved s t) (hs : s.busy = true → s.result = .none) :
    t.busy = true → t.result = .none := by
  have idle {u : State} (hu : u.pending = none) : u.busy = true → u.result = .none := by simp [busy_eq_false.mpr hu]
  cases h with
  | ran _ _ he =>
    obtain ⟨hp, -⟩ := (exec_eq_next he).idle
    exact idle hp
  | illegal => exact idle rfl
  | wrote a v hp =>
    by_cases ha : placeOf a = .cmd
    · rw [ha]
      exact fun _ => rfl
    · obtain ⟨hpending, -, -⟩ := writePlace_idle v s ha
      exact idle (hpending.trans hp)
  | read | held => exact hs

/-- Settles O54: each of the three parts survives reset and every move. -/
theorem stepKeepsTheInvariant : Obligations.StepKeepsTheInvariant := by
  unfold Obligations.StepKeepsTheInvariant
  rintro s t ⟨hmem, hlegal, hres⟩ h
  rcases step_eq_next h with ⟨rest, -, rfl⟩ | ⟨turns, hm⟩
  · exact ⟨rfl, hlegal, nofun⟩
  · exact ⟨hm.memWf hmem, by rw [hm.params]; exact hlegal, hm.result hres⟩

/-- The transmit frame depends on TXBUF and TXLEN alone. -/
theorem txFrame_congr {s t : State} (h : t.tx = s.tx ∧ t.txlen = s.txlen) (hs : s.txFrame) : t.txFrame := by
  obtain ⟨htx, hlen⟩ := h
  simpa only [State.txFrame, Written, State.byteAt, store_tx, htx, hlen] using hs

/-- ENCODE that ends with ENCODED leaves its datagram in TXBUF, a whole one. -/
theorem txFrame_of_encoded {s : State} (h1 : 1 ≤ s.msgLen.toNat) (hmax : s.msgLen.toNat ≤ s.params.maxPayload.toNat)
    (hw : Written s .payload 0 s.msgLen.toNat) :
    (complete .encoded (commitDatagram s.encodedDatagram s)).txFrame := by
  obtain ⟨-, build⟩ := encodeBuildsTheDatagram
  obtain ⟨t, ht, -, hlen, hbytes, -⟩ := build s h1 hmax hw
  obtain rfl := Host.Outcome.next.inj ((exec_encode_of_written h1 hmax hw).symm.trans ht)
  generalize complete .encoded (commitDatagram s.encodedDatagram s) = t at hlen hbytes ⊢
  have hbyte (k : Nat) (hk : k < 16 + s.msgLen.toNat) : (t.byteAt .tx k).toNat = s.encodedByte k := by
    obtain ⟨b, hb, hval⟩ := hbytes k hk
    rw [byteAt_of_memGet (st := .tx) hb, hval]
  have hmsgLen := s.msgLen.isLt
  refine .inr ⟨by omega, by omega, fun k hk => ?_, BitVec.eq_of_toNat_eq (hbyte 0 (by omega)),
    BitVec.eq_of_toNat_eq (hbyte 1 (by omega)), ?_, BitVec.eq_of_toNat_eq (hbyte 6 (by omega)),
    BitVec.eq_of_toNat_eq (hbyte 7 (by omega)), ?_⟩
  · obtain ⟨b, hb, -⟩ := hbytes (0 + k) (by omega)
    exact Option.isSome_of_mem hb
  · have h4 : (t.byteAt .tx 4).toNat = (16 + s.msgLen.toNat) / 256 := hbyte 4 (by omega)
    have h5 : (t.byteAt .tx 5).toNat = (16 + s.msgLen.toNat) % 256 := hbyte 5 (by omega)
    omega
  · have h14 : (t.byteAt .tx 14).toNat = s.msgLen.toNat := hbyte 14 (by omega)
    omega

theorem Ended.txFrame {s t : State} {i : Instr} (h : Ended s i t) (hs : s.txFrame) : t.txFrame := by
  cases h with
  | encodeFailed => exact .inl rfl
  | encoded h1 hmax hw => exact txFrame_of_encoded h1 hmax hw
  | _ => exact txFrame_congr ⟨rfl, rfl⟩ hs

/-- Settles O55: reset clears TXLEN, ENCODE clears it or commits a whole datagram, and no other move touches either. -/
theorem stepKeepsTheTransmitFrame : Obligations.StepKeepsTheTransmitFrame := by
  unfold Obligations.StepKeepsTheTransmitFrame
  intro s t hs h
  rcases step_eq_next h with ⟨rest, -, rfl⟩ | ⟨turns, hm⟩
  · exact .inl rfl
  · have hs : (s.withAgenda turns).txFrame := hs
    cases hm with
    | ran _ _ he => exact (exec_eq_next he).txFrame hs
    | wrote a v _ =>
      obtain ⟨-, -, -, -, htx, hlen, -, -⟩ := writePlace_frame v (s.withAgenda turns) (placeOf a)
      exact txFrame_congr ⟨htx, hlen⟩ hs
    | illegal | read | held => exact hs

/-! ## Who writes TXBUF and DPT_RESULT (10_state R23, R31) -/

theorem Ended.results {s t : State} {i : Instr} (h : Ended s i t) :
    (t.tx = s.tx ∨ (i = .encode ∧ t.result = .encoded))
    ∧ (t.dptResult = s.dptResult ∨ (dptNeed i ≠ none ∧ t.result = .dptOk)) := by
  cases h with
  | encoded => exact ⟨.inr ⟨rfl, rfl⟩, .inl rfl⟩
  | dptDone v hi => exact ⟨.inl rfl, .inr ⟨hi, rfl⟩⟩
  | float16Done v => exact ⟨.inl rfl, .inr ⟨nofun, rfl⟩⟩
  | discarded | delivered | encodeFailed | dptFailed => exact ⟨.inl rfl, .inl rfl⟩

/-- Settles O58: of the moves only a command's run writes either register. -/
theorem onlyTheirCommandsWriteResults : Obligations.OnlyTheirCommandsWriteResults := by
  unfold Obligations.OnlyTheirCommandsWriteResults
  intro s t h hreset
  rcases step_eq_next h with ⟨rest, ha, -⟩ | ⟨turns, hm⟩
  · exact absurd ha (hreset rest)
  cases hm with
  | ran hp hd he =>
    obtain ⟨htx, hdpt⟩ := (exec_eq_next he).results
    refine ⟨htx.imp_right fun ⟨hi, hres⟩ => ⟨?_, hres⟩, hdpt.imp_right fun ⟨hi, hres⟩ => ⟨_, _, hp, hd, hi, hres⟩⟩
    subst hi
    rwa [← encode_of_decode hd] at hp
  | wrote a v _ =>
    obtain ⟨-, -, -, -, htx, -, -, hdpt⟩ := writePlace_frame v (s.withAgenda turns) (placeOf a)
    exact ⟨.inl htx, .inl hdpt⟩
  | illegal | read | held => exact ⟨.inl rfl, .inl rfl⟩

/-! ## The careful host (30_encoding R91, 70_reset_and_hazards R156) -/

/-- A well-formed program's accesses are a careful agenda, whether or not a command is waiting. -/
theorem turnsOk_of_programOkFrom {w : Bool} {p : List Access} (h : programOkFrom w p = true) :
    turnsOk w (p.map .host) = true := by
  induction p generalizing w with
  | nil => rfl
  | cons a p ih =>
    cases a with
    | wait => exact ih h
    | rd a e | wr a v =>
      simp only [programOkFrom, Bool.and_eq_true] at h
      simp only [List.map_cons, turnsOk, Bool.and_eq_true]
      exact h.imp_right ih

/-- An agenda that is careful while a command runs is careful once it has ended. -/
theorem turnsOk_of_waiting {w : Bool} {turns : List Turn} (h : turnsOk w turns = true) : turnsOk false turns = true := by
  induction turns generalizing w with
  | nil => rfl
  | cons turn turns ih =>
    cases turn with
    | host a =>
      cases a with
      | wait => exact h
      | rd a e =>
        simp only [turnsOk, Bool.and_eq_true] at h
        obtain ⟨-, hrest⟩ := h
        exact ih hrest
      | wr a v =>
        simp only [turnsOk, Bool.and_eq_true] at h
        obtain ⟨-, hrest⟩ := h
        exact hrest
    | engine | reset => exact ih (w := w) h

/-- After the engine's step nothing is pending, and the turns left are as careful as before. -/
theorem engineStep_careful {s : State} (hs : turnsOk s.busy s.agenda = true) :
    engineStep s ≠ .fault .hazardBusy ∧ ∀ t, engineStep s = .next t → t.hostCareful := by
  rcases engineStep_ends s with ⟨t, e, hp, -, ha⟩ | ⟨st, k, -, e⟩ <;> rw [e]
  · refine ⟨nofun, fun u hu => ?_⟩
    obtain rfl := Host.Outcome.next.inj hu
    rw [State.hostCareful, busy_eq_false.mpr hp, ha]
    exact turnsOk_of_waiting hs
  · exact ⟨by simp, nofun⟩

/-- A careful read is of STATUS while a command runs, so no hazard. -/
theorem hostRead_careful {s : State} {a : Addr} (hs : s.busy = false ∨ a = 0x0001)
    (hrest : turnsOk s.busy s.agenda = true) :
    hostRead a s ≠ .fault .hazardBusy ∧ ∀ t, hostRead a s = .next t → t.hostCareful := by
  rcases hostRead_cases a s with ⟨hb, ha, -⟩ | ⟨-, ⟨v, -, e⟩ | ⟨st, k, -, e⟩⟩
  · exact absurd (hs.resolve_left (by simp [hb])) ha
  · rw [e]
    refine ⟨nofun, fun t ht => ?_⟩
    obtain rfl := Host.Outcome.next.inj ht
    exact hrest
  · rw [e]
    exact ⟨by simp, nofun⟩

/-- BUSY after a host write: 1 exactly if the write was to CMD. -/
theorem busy_writePlace {s : State} (hs : s.busy = false) (a : Addr) (v : Byte) :
    (writePlace v s (placeOf a)).busy = (a == 0x0000) := by
  by_cases ha : a = 0x0000
  · subst ha
    rfl
  · obtain ⟨hp, -, -⟩ := writePlace_idle v s (mt placeOf_eq_cmd.mp ha)
    rw [State.busy, hp, ← State.busy, hs, beq_eq_false_iff_ne.mpr ha]

/-- A careful write is made while BUSY = 0, so no hazard. -/
theorem hostWrite_careful {s : State} {a : Addr} {v : Byte} (hs : s.busy = false)
    (hrest : turnsOk (a == 0x0000) s.agenda = true) :
    hostWrite a v s ≠ .fault .hazardBusy ∧ ∀ t, hostWrite a v s = .next t → t.hostCareful := by
  rw [hostWrite_of_idle (busy_eq_false.mp hs)]
  refine ⟨nofun, fun t ht => ?_⟩
  obtain rfl := Host.Outcome.next.inj ht
  obtain ⟨-, hagenda, -⟩ := writePlace_frame v s (placeOf a)
  rwa [State.hostCareful, busy_writePlace hs, hagenda]

/-- Settles O59: turn by turn, with `turnsOk` saying what a careful host has left after each. -/
theorem carefulHostNeverMeetsTheHazard : Obligations.CarefulHostNeverMeetsTheHazard := by
  unfold Obligations.CarefulHostNeverMeetsTheHazard
  refine ⟨fun p hp => turnsOk_of_programOkFrom hp, fun s hs => ?_⟩
  have hs : turnsOk s.busy s.agenda = true := hs
  rcases step_cases s with ⟨-, e⟩ | ⟨rest, ha, e⟩ | ⟨rest, ha, e⟩ | ⟨a, x, rest, ha, e⟩ | ⟨a, v, rest, ha, e⟩
    | ⟨rest, -, -, e⟩ | ⟨rest, ha, hb, e⟩ <;> rw [e]
  · exact engineStep_careful hs
  · rw [ha] at hs
    exact engineStep_careful (s := s.withAgenda rest) hs
  · rw [ha] at hs
    refine ⟨nofun, fun t ht => ?_⟩
    obtain rfl := Host.Outcome.next.inj ht
    exact turnsOk_of_waiting (w := s.busy) hs
  · simp only [ha, turnsOk, Bool.and_eq_true, Bool.or_eq_true, Bool.not_eq_true', beq_iff_eq] at hs
    obtain ⟨hread, hrest⟩ := hs
    exact hostRead_careful (s := s.withAgenda rest) hread hrest
  · simp only [ha, turnsOk, Bool.and_eq_true, Bool.not_eq_true'] at hs
    obtain ⟨hb, hrest⟩ := hs
    exact hostWrite_careful (s := s.withAgenda rest) hb hrest
  · exact engineStep_careful hs
  · rw [ha] at hs
    refine ⟨nofun, fun t ht => ?_⟩
    obtain rfl := Host.Outcome.next.inj ht
    rw [State.hostCareful, busy_withAgenda, hb]
    exact hs

/-! ## The end of a run (70_reset_and_hazards R162, R164) -/

/-- R164: STATUS shows whether a command is pending. -/
theorem status_lt_iff {s : State} : s.status.toNat < 128 ↔ s.busy = false := by
  have := s.result.code.isLt
  rw [status_toNat, State.busy]
  cases s.pending.isSome <;> simp
  omega

/-- A final state has nothing pending, and no turn of the host left. -/
theorem step_of_final {s : State} (hs : s.isFinal) :
    ∃ t, step s = .next t ∧ t.isFinal
      ∧ ((∀ rest, s.agenda ≠ .reset :: rest) → t = { s with agenda := s.agenda.tail }) := by
  obtain ⟨hdone, hb⟩ := hs
  have hp := busy_eq_false.mp hb
  rcases ha : s.agenda with _ | ⟨turn, rest⟩
  · refine ⟨s, (step_of_nil ha).trans (engineStep_of_idle hp), ⟨hdone, hb⟩, fun _ => ?_⟩
    rw [List.tail_nil, ← ha]
  simp only [State.hostDone, ha, List.all_cons, Bool.and_eq_true] at hdone
  obtain ⟨hturn, hrest⟩ := hdone
  cases turn with
  | host a => cases hturn
  | engine =>
    exact ⟨_, (step_of_engine ha).trans (engineStep_of_idle (s := s.withAgenda rest) hp), ⟨hrest, hb⟩, fun _ => rfl⟩
  | reset => exact ⟨_, step_of_reset ha, ⟨hrest, rfl⟩, fun h => absurd rfl (h rest)⟩

/-- How many steps a run needs at most: two for each turn, as a CMD write needs one more for its command, and one for the
command pending. -/
def State.stepsLeft (s : State) : Nat := 2 * s.agenda.length + s.busy.toNat

theorem isFinal_of_stepsLeft_eq_zero {s : State} (h : s.stepsLeft = 0) : s.isFinal ∧ s.agenda = [] := by
  have hagenda : s.agenda = [] := List.eq_nil_of_length_eq_zero (by unfold State.stepsLeft at h; omega)
  have hb : s.busy = false := Bool.toNat_eq_zero.mp (by unfold State.stepsLeft at h; omega)
  exact ⟨⟨by rw [State.hostDone, hagenda]; rfl, hb⟩, hagenda⟩

/-- A turn taken pays for the command it may have started. -/
theorem stepsLeft_of_taken {s t : State} {turn : Turn} {rest : List Turn} (hs : s.agenda = turn :: rest)
    (ht : t.agenda = rest) : t.stepsLeft ≤ s.stepsLeft - 1 := by
  have := t.busy.toNat_le
  simp only [State.stepsLeft, hs, ht, List.length_cons]
  omega

/-- The engine's step leaves no command pending, or faults. -/
theorem engineStep_progress (s : State) :
    (∃ f, engineStep s = .fault f) ∨ ∃ t, engineStep s = .next t ∧ t.agenda = s.agenda ∧ t.busy = false := by
  rcases engineStep_ends s with ⟨t, e, hp, -, ha⟩ | ⟨st, k, -, e⟩
  · exact .inr ⟨t, e, ha, busy_eq_false.mpr hp⟩
  · exact .inl ⟨_, e⟩

/-- Every step brings the end of the run nearer, or faults; with no step needed the state is held. -/
theorem step_progress (s : State) :
    (∃ f, step s = .fault f) ∨ ∃ t, step s = .next t ∧ t.stepsLeft ≤ s.stepsLeft - 1 := by
  rcases step_cases s with ⟨ha, e⟩ | ⟨rest, ha, e⟩ | ⟨rest, ha, e⟩ | ⟨a, x, rest, ha, e⟩ | ⟨a, v, rest, ha, e⟩
    | ⟨rest, ha, hb, e⟩ | ⟨rest, ha, -, e⟩ <;> rw [e]
  · refine (engineStep_progress s).imp_right fun ⟨t, ht, hagenda, hidle⟩ => ⟨t, ht, ?_⟩
    simp [State.stepsLeft, hagenda, ha, hidle]
  · exact (engineStep_progress (s.withAgenda rest)).imp_right fun ⟨t, ht, hagenda, _⟩ =>
      ⟨t, ht, stepsLeft_of_taken ha hagenda⟩
  · exact .inr ⟨_, rfl, stepsLeft_of_taken ha rfl⟩
  · rcases hostRead_cases a (s.withAgenda rest) with ⟨-, -, r⟩ | ⟨-, ⟨v, -, r⟩ | ⟨st, k, -, r⟩⟩
    · exact .inl ⟨_, r⟩
    · exact .inr ⟨_, r, stepsLeft_of_taken ha rfl⟩
    · exact .inl ⟨_, r⟩
  · rcases hostWrite_cases a v (s.withAgenda rest) with ⟨-, w⟩ | ⟨-, w⟩
    · exact .inl ⟨_, w⟩
    · obtain ⟨-, hagenda, -⟩ := writePlace_frame v (s.withAgenda rest) (placeOf a)
      exact .inr ⟨_, w, stepsLeft_of_taken ha hagenda⟩
  · refine (engineStep_progress s).imp_right fun ⟨t, ht, hagenda, hidle⟩ => ⟨t, ht, ?_⟩
    simp [State.stepsLeft, hagenda, hb, hidle]
  · exact .inr ⟨_, rfl, stepsLeft_of_taken ha rfl⟩

/-- A run of at least as many steps as are needed ends in a final state with every turn taken, or faults. -/
theorem run_ends {n : Nat} {s : State} (h : s.stepsLeft ≤ n) :
    (∃ t, core.run n s = .next t ∧ t.isFinal ∧ t.agenda = []) ∨ ∃ f, core.run n s = .fault f := by
  induction n generalizing s with
  | zero =>
    obtain ⟨hfinal, hagenda⟩ := isFinal_of_stepsLeft_eq_zero (Nat.le_zero.mp h)
    exact .inl ⟨s, rfl, hfinal, hagenda⟩
  | succ n ih =>
    rcases step_progress s with ⟨f, e⟩ | ⟨t, e, ht⟩
    · exact .inr ⟨f, run_succ_fault e⟩
    · rw [run_succ_next e]
      exact ih (by omega)

/-- Settles O60: STATUS for R164's condition, one step of a final state, and `run_ends` for every run. -/
theorem everyRunEndsFinalOrFaulted : Obligations.EveryRunEndsFinalOrFaulted := by
  unfold Obligations.EveryRunEndsFinalOrFaulted
  refine ⟨fun s => and_congr hostDone_iff status_lt_iff.symm, fun s => step_of_final, fun s => run_ends ?_⟩
  have := s.busy.toNat_le
  unfold State.stepsLeft
  omega

end Sys2Proof.Machine
end

section
/-! PROOFS. The statements of 20_memory: the big-endian registers, and what a host read returns after a write and of a
buffer byte. -/

namespace Sys2Proof.Machine

/-! ## The map and 16-bit registers (20_memory R42, R46) -/

theorem toNat_eq_hi8_lo8 (r : BitVec 16) : r.toNat = (hi8 r).toNat * 256 + (lo8 r).toNat := by
  rw [hi8_toNat, lo8_toNat]
  omega

theorem withHi_toNat (r : BitVec 16) (v : Byte) : (withHi r v).toNat = v.toNat * 256 + r.toNat % 256 := by
  simp only [withHi, append_toNat, lo8_toNat, Nat.reducePow]

theorem withLo_toNat (r : BitVec 16) (v : Byte) : (withLo r v).toNat = r.toNat / 256 * 256 + v.toNat := by
  simp only [withLo, append_toNat, hi8_toNat, Nat.reducePow]

/-- A 32-bit value from its four bytes, high byte first. -/
theorem toNat_eq_bytes32 (r : BitVec 32) :
    r.toNat = (r.extractLsb' 24 8).toNat * 2 ^ 24 + (r.extractLsb' 16 8).toNat * 2 ^ 16
      + (r.extractLsb' 8 8).toNat * 2 ^ 8 + (r.extractLsb' 0 8).toNat := by
  have := r.isLt
  simp only [extract_toNat]
  omega

/-- Settles O19: each address names its byte of the register, and a write replaces that byte's bits. -/
theorem multiByteRegistersAreBigEndian : Obligations.MultiByteRegistersAreBigEndian := by
  unfold Obligations.MultiByteRegistersAreBigEndian
  intro s
  refine ⟨rfl, rfl, ⟨_, rfl, ?_⟩, ⟨_, _, rfl, rfl, toNat_eq_hi8_lo8 _⟩, ⟨_, _, rfl, rfl, toNat_eq_hi8_lo8 _⟩,
    ⟨_, _, rfl, rfl, toNat_eq_hi8_lo8 _⟩, ⟨_, _, rfl, rfl, toNat_eq_hi8_lo8 _⟩, ⟨_, _, rfl, rfl, toNat_eq_hi8_lo8 _⟩,
    ⟨_, _, _, _, rfl, rfl, rfl, rfl, toNat_eq_bytes32 _⟩, fun hp a b hb => ?_, fun v hp => ?_⟩
  · exact (append_toNat 0 s.msgCt).trans (by simp)
  · exact hostRead_of_readPlace (.inl (busy_eq_false.mpr hp)) hb
  · have write (a : Addr) : hostWrite a v s = .next (writePlace v s (placeOf a)) := hostWrite_of_idle hp a v
    exact ⟨⟨_, write 0x0002, withHi_toNat _ v⟩, ⟨_, write 0x0003, withLo_toNat _ v⟩, ⟨_, write 0x0008, withHi_toNat _ v⟩,
      ⟨_, write 0x0009, withLo_toNat _ v⟩, ⟨_, write 0x000A, withHi_toNat _ v⟩, ⟨_, write 0x000B, withLo_toNat _ v⟩⟩

/-! ## Reads after writes (20_memory R51) -/

/-- A byte written to RXBUF or MSG_PAYLOAD is the byte read there. -/
theorem readByte_write_same (st : Store) (k : Nat) (v : Byte) (s : State) :
    readByte (s.write st k [v]) st k = .ok v := by
  rw [readByte_ok]
  cases st <;> exact memGet_memPut_same _ k v

/-- Each writable byte of R42's map but CMD and MSG_CT holds what was written to it: the other places have other
addresses. -/
theorem readPlace_writePlace_same {p : Place} {n : Nat} (hp : p.addr = some n) (hb : p.inBuffers)
    (hn : n = 0x0002 ∨ n = 0x0003 ∨ (0x0007 ≤ n ∧ n ≤ 0x000B) ∨ (0x0100 ≤ n ∧ n ≤ 0x01FE) ∨ (0x0400 ≤ n ∧ n ≤ 0x07FF))
    (v : Byte) (s : State) : readPlace (writePlace v s p) p = .ok v := by
  cases p with
  | rxlenHi | msgSrcHi | msgDstHi => exact congrArg Except.ok (hi8_withHi _ v)
  | rxlenLo | msgSrcLo | msgDstLo => exact congrArg Except.ok (lo8_withLo _ v)
  | msgLen => rfl
  | payload k => exact readByte_write_same .payload k v s
  | rx k => exact readByte_write_same .rx k v s
  | unmapped => cases hp
  | _ =>
    simp only [Place.addr, Place.inBuffers, Option.some.injEq] at hp hb
    omega

/-- Settles O17: none of these addresses is CMD, so BUSY stays 0 and the read is no hazard. -/
theorem hostReadReturnsTheByteWritten : Obligations.HostReadReturnsTheByteWritten := by
  unfold Obligations.HostReadReturnsTheByteWritten
  intro s a v hp ha
  have haddr : (placeOf a).addr = some a.toNat := (placeOf_spec a).resolve_right fun ⟨_, h⟩ => by omega
  have hcmd : placeOf a ≠ .cmd := by
    rw [ne_eq, placeOf_eq_cmd]
    rintro rfl
    simp at ha
  obtain ⟨hpending, -, -⟩ := writePlace_idle v s hcmd
  exact ⟨_, hostWrite_of_idle hp a v, hostRead_of_readPlace (.inl (busy_eq_false.mpr (hpending.trans hp)))
    (readPlace_writePlace_same haddr (placeOf_inBuffers a) ha v s)⟩

/-! ## Buffer bytes (60_exceptions R140) -/

/-- A host read that is no hazard faults where its place holds an unwritten byte. -/
theorem hostRead_of_readPlace_error {a : Addr} {s : State} {f : Fault} (hs : s.busy = false)
    (hf : readPlace s (placeOf a) = .error f) : hostRead a s = .fault f := by
  simp [hostRead, hs, hf]

/-- Settles O21: the address names the byte of its store, and a host read reads that byte. -/
theorem hostReadOfBuffers : Obligations.HostReadOfBuffers := by
  unfold Obligations.HostReadOfBuffers
  intro s a st k hp ha
  have hb : s.busy = false := busy_eq_false.mpr hp
  have hplace : readPlace s (placeOf a) = readByte s st k := by
    rcases ha with ⟨rfl, hk, ha⟩ | ⟨rfl, hk, ha⟩ | ⟨rfl, hk, ha⟩
    · rw [placeOf_payload hk ha, readPlace]
    · rw [placeOf_rx hk ha, readPlace]
    · rw [placeOf_tx hk ha, readPlace]
  refine ⟨fun hnone => ?_, fun b hsome => ?_⟩
  · exact hostRead_of_readPlace_error hb (hplace.trans (readByte_error.mpr ⟨hnone, rfl⟩))
  · exact hostRead_of_readPlace (.inl hb) (hplace.trans (readByte_ok.mpr hsome))

end Sys2Proof.Machine
end

section
/-! PROOFS. The statements about every DPT command, and the byte at which ENCODE faults. They rest on `exec_dpt_eq`: a DPT
command reads P[1..need-1] in order and computes its value from those bytes. -/

namespace Sys2Proof.Machine

/-! ## MemRead (00_scope R9, 60_exceptions R140) -/

/-- The first unwritten byte of those read is the fault. -/
theorem readBytes_of_first_unwritten {s : State} {st : Store} {off n k : Nat} (hk : k < n) (hw : Written s st off k)
    (hnone : memGet (s.store st) (off + k) = none) : readBytes s st off n = .error (.uninit st (off + k)) := by
  induction k generalizing off n with
  | zero =>
    obtain ⟨m, rfl⟩ := Nat.exists_eq_add_of_le' hk
    have hfirst : readByte s st off = .error (.uninit st off) := readByte_error.mpr ⟨hnone, rfl⟩
    rw [readBytes, hfirst]
    rfl
  | succ k ih =>
    obtain ⟨m, rfl⟩ : ∃ m, n = m + 1 := ⟨n - 1, by omega⟩
    obtain ⟨hfirst, hrest⟩ := written_succ_iff.mp hw
    have hoff : off + (k + 1) = off + 1 + k := by omega
    rw [hoff] at hnone ⊢
    rw [readBytes, readByte_ok.mpr (memGet_of_written hfirst)]
    exact bind_error.mpr (.inr ⟨_, rfl, bind_error.mpr (.inl (ih (by omega) hrest hnone))⟩)

/-- What MemRead answers depends on the bytes it reads alone. -/
theorem readBytes_congr {s t : State} {st : Store} {off n : Nat}
    (h : ∀ k < n, memGet (t.store st) (off + k) = memGet (s.store st) (off + k)) :
    readBytes t st off n = readBytes s st off n := by
  induction n generalizing off with
  | zero => rfl
  | succ n ih =>
    have hrest : ∀ k < n, memGet (t.store st) (off + 1 + k) = memGet (s.store st) (off + 1 + k) := fun k hk => by
      rw [Nat.add_assoc, Nat.add_comm 1]
      exact h (k + 1) (by omega)
    have hfirst : readByte t st off = readByte s st off := readByte_congr (h 0 (by omega))
    rw [readBytes, readBytes, hfirst, ih hrest]

/-- Settles O50: ENCODE's length check passes, and its one read stops there. -/
theorem encodeFaultsAtTheFirstUnwrittenByte : Obligations.EncodeFaultsAtTheFirstUnwrittenByte := by
  unfold Obligations.EncodeFaultsAtTheFirstUnwrittenByte
  intro s k h1 hmax hk hw hnone
  have hgood : ¬ encodeLenBad s = true := by
    rw [encodeLenBad_iff]
    omega
  have hread := readBytes_of_first_unwritten (st := .payload) hk hw (by rwa [Nat.zero_add])
  rw [exec, execEncode, if_neg hgood, hread, Nat.zero_add]

/-! ## What a DPT command reads and writes (41_dpt R93 to R104) -/

/-- The value a DPT command computes from the bytes P[1..need-1], under a build and after a number of draws. -/
def dptValueOf (p : Params) (draws : Nat) : Instr → List Byte → BitVec 32
  | .dptBool, [b1]  => (b1.extractLsb' 0 1).setWidth 32
  | .dptInt8, [b1]  => b1.signExtend 32
  | .dptUint8, [b1] => b1.setWidth 32
  | .dptInt16, [b1, b2]   => (be16 b1 b2).signExtend 32
  | .dptUint16, [b1, b2]  => (be16 b1 b2).setWidth 32
  | .dptFloat16, [b1, b2] => dpt9Value p.dpt9Mantissa p.dpt9Rounding (Config.freeRoundUp draws) (be16 b1 b2)
  | .dptInt32, [b1, b2, b3, b4] | .dptUint32, [b1, b2, b3, b4] | .dptFloat32, [b1, b2, b3, b4] => be32 b1 b2 b3 b4
  | _, _ => 0

/-- How a DPT command writes its value: DPT.FLOAT16 may use up a draw. -/
def dptCommitOf : Instr → BitVec 32 → State → State
  | .dptFloat16 => commitFloat16
  | _           => setDptResult

@[simp] theorem dptCommitOf_dptResult (i : Instr) (v : BitVec 32) (s : State) : (dptCommitOf i v s).dptResult = v := by
  cases i <;> rfl

/-- One byte read and a value made of it. -/
theorem dptByte_map (s : State) (f : Byte → BitVec 32) (g : List Byte → BitVec 32) (h : ∀ b1, f b1 = g [b1]) :
    (dptByte s).map f = (readBytes s .payload 1 1).map g := by
  simp only [dptByte, readBytes]
  cases readByte s .payload 1 with
  | error e => rfl
  | ok b1 => exact congrArg Except.ok (h b1)

/-- Two bytes read and a value made of them. -/
theorem dptWord16_map (s : State) (f : BitVec 16 → BitVec 32) (g : List Byte → BitVec 32)
    (h : ∀ b1 b2, f (be16 b1 b2) = g [b1, b2]) : (dptWord16 s).map f = (readBytes s .payload 1 2).map g := by
  simp only [dptWord16, readBytes]
  cases readByte s .payload 1 with
  | error e => rfl
  | ok b1 =>
    cases readByte s .payload 2 with
    | error e => rfl
    | ok b2 => exact congrArg Except.ok (h b1 b2)

/-- Four bytes read and put together. -/
theorem dptWord32_eq_map (s : State) (g : List Byte → BitVec 32)
    (h : ∀ b1 b2 b3 b4, be32 b1 b2 b3 b4 = g [b1, b2, b3, b4]) :
    dptWord32 s = (readBytes s .payload 1 4).map g := by
  simp only [dptWord32, readBytes]
  cases readByte s .payload 1 with
  | error e => rfl
  | ok b1 =>
    cases readByte s .payload 2 with
    | error e => rfl
    | ok b2 =>
      cases readByte s .payload 3 with
      | error e => rfl
      | ok b3 =>
        cases readByte s .payload 4 with
        | error e => rfl
        | ok b4 => exact congrArg Except.ok (h b1 b2 b3 b4)

/-- Every DPT command is the common frame around one read of P[1..need-1]. -/
theorem exec_dpt_eq {i : Instr} {n : Nat} (hi : dptNeed i = some n) (s : State) :
    exec i s = dptCommand n s ((readBytes s .payload 1 (n - 1)).map (dptValueOf s.params s.draws i)) (dptCommitOf i) := by
  cases i <;> simp only [dptNeed, Option.some.injEq, reduceCtorEq] at hi <;> subst hi
  case dptBool | dptInt8 | dptUint8 =>
    exact congrArg (dptCommand 2 s · setDptResult) (dptByte_map s _ _ fun _ => rfl)
  case dptInt16 | dptUint16 =>
    exact congrArg (dptCommand 3 s · setDptResult) (dptWord16_map s _ _ fun _ _ => rfl)
  case dptFloat16 => exact congrArg (dptCommand 3 s · commitFloat16) (dptWord16_map s _ _ fun _ _ => rfl)
  case dptInt32 | dptUint32 | dptFloat32 =>
    exact congrArg (dptCommand 5 s · setDptResult) (dptWord32_eq_map s _ fun _ _ _ _ => rfl)

/-- Settles O31: the three ends of the common frame, its value being one read. -/
theorem dptCommandsFailShortAndElseComplete : Obligations.DptCommandsFailShortAndElseComplete := by
  unfold Obligations.DptCommandsFailShortAndElseComplete
  intro i n s hi
  rw [exec_dpt_eq hi]
  refine ⟨fun hlen => ⟨_, if_pos hlen, rfl, complete_status _ _⟩, fun k hlen h1 hk hw hnone => ?_, fun hlen hw => ?_⟩
  · obtain ⟨j, rfl⟩ := Nat.exists_eq_add_of_le h1
    rw [Nat.add_sub_cancel_left] at hw
    have hread := readBytes_of_first_unwritten (st := .payload) (n := n - 1) (by omega) hw hnone
    simp only [dptCommand, if_neg (Nat.not_lt.mpr hlen), hread, Except.map]
  · obtain ⟨bs, hread⟩ := readBytes_of_written hw
    simp only [dptCommand, if_neg (Nat.not_lt.mpr hlen), hread, Except.map]
    exact ⟨_, rfl, complete_status _ _⟩

/-- Settles O33: the same length check, the same read and the same function of the bytes read. -/
theorem dptDependsOnItsBytesOnly : Obligations.DptDependsOnItsBytesOnly := by
  unfold Obligations.DptDependsOnItsBytesOnly
  intro i n s t hi hlen hparams hdraws hbytes
  have hread : readBytes s .payload 1 (n - 1) = readBytes t .payload 1 (n - 1) :=
    readBytes_congr (st := .payload) fun k hk => hbytes (1 + k) (by omega) (by omega)
  simp only [exec_dpt_eq hi, dptCommand, hlen, hparams, hdraws, hread]
  by_cases hshort : t.msgLen.toNat < n
  · simp [hshort]
  · cases readBytes t .payload 1 (n - 1) <;> simp [hshort, Except.map]

end Sys2Proof.Machine
end

section
/-! PROOFS. The statements of 41_dpt R100 about the 2-byte float: its result is the nearest binary32 value, or one of the
two neighbours, and is +0.0 or a normal number. The facts are first said of magnitudes, then of signed values. -/

namespace Sys2Proof.Machine

/-! ## Magnitudes next to a rational -/

section
variable {num den : Nat} (hden : 0 < den)

/-- `magBelow` is not above the rational. -/
theorem magUnits_magBelow_le (num den : Nat) : magUnits (magBelow num den) * den ≤ num * unitsPerOne := by
  obtain ⟨hrest, -⟩ := magBelow_spec num den
  omega

include hden

/-- The rational is below the pattern after `magBelow`. -/
theorem lt_magUnits_magBelow_succ : num * unitsPerOne < magUnits (magBelow num den + 1) * den := by
  obtain ⟨hrest, hstep⟩ := magBelow_spec num den
  have := magRest_lt (num := num) hden
  omega

/-- No magnitude lies between `magBelow` and the rational. -/
theorem magUnits_le_magBelow {p : Nat} (hp : magUnits p * den ≤ num * unitsPerOne) :
    magUnits p ≤ magUnits (magBelow num den) :=
  magUnits_strictMono.monotone (le_magBelow hden hp)

/-- `magAbove` is not below the rational. -/
theorem le_magUnits_magAbove : num * unitsPerOne ≤ magUnits (magAbove num den) * den := by
  unfold magAbove
  split
  · obtain ⟨hrest, -⟩ := magBelow_spec num den
    omega
  · exact (lt_magUnits_magBelow_succ hden).le

/-- No magnitude lies between the rational and `magAbove`. -/
theorem magUnits_magAbove_le {p : Nat} (hp : num * unitsPerOne ≤ magUnits p * den) :
    magUnits (magAbove num den) ≤ magUnits p := by
  have hbelow := magUnits_magBelow_le num den
  apply magUnits_strictMono.monotone
  unfold magAbove
  split
  · exact magUnits_strictMono.le_iff_le.mp (Nat.le_of_mul_le_mul_right (hbelow.trans hp) hden)
  · next hrest =>
    obtain ⟨hsum, -⟩ := magBelow_spec num den
    have hlt : magUnits (magBelow num den) * den < magUnits p * den := by omega
    exact magUnits_strictMono.lt_iff_lt.mp (Nat.lt_of_mul_lt_mul_right hlt)

end

/-! ## The nearest magnitude (00_scope R9) -/

/-- A tie goes to the even pattern. -/
theorem magNearest_even_of_tie {num den : Nat} (h : 2 * magRest num den = magStep num den) :
    magNearest num den % 2 = 0 := by
  rw [magNearest, if_neg (by omega), if_neg (by omega)]
  omega

/-- How far a magnitude lies from the rational, both scaled by `den`. -/
def magDist (num den p : Nat) : Nat := ((magUnits p * den : Nat) - (num * unitsPerOne : Nat) : Int).natAbs

/-- No magnitude is nearer than `magNearest`, and where another is as near, `magNearest` is even. -/
theorem magNearest_nearest {num den : Nat} (hden : 0 < den) (p : Nat) :
    magDist num den (magNearest num den) ≤ magDist num den p
    ∧ (magDist num den (magNearest num den) = magDist num den p → magUnits (magNearest num den) ≠ magUnits p →
        magNearest num den % 2 = 0) := by
  obtain ⟨hsum, hstep⟩ := magBelow_spec num den
  have hrest := magRest_lt (num := num) hden
  have heven := @magNearest_even_of_tie num den
  have hp : magUnits p * den ≤ magUnits (magBelow num den) * den
      ∨ magUnits (magBelow num den + 1) * den ≤ magUnits p * den := by
    rcases Nat.lt_or_ge (magBelow num den) p with h | h
    · exact .inr (Nat.mul_le_mul_right den (magUnits_strictMono.monotone h))
    · exact .inl (Nat.mul_le_mul_right den (magUnits_strictMono.monotone h))
  have hne (m : Nat) (h : magUnits m ≠ magUnits p) : magUnits m * den ≠ magUnits p * den :=
    fun e => h (Nat.eq_of_mul_eq_mul_right hden e)
  unfold magDist
  rcases magNearest_cases num den with ⟨hm, hhalf⟩ | ⟨hm, hhalf⟩
  · rw [hm] at heven ⊢
    refine ⟨by omega, fun htie hdiff => heven ?_⟩
    have := hne _ hdiff
    omega
  · rw [hm] at heven ⊢
    refine ⟨by omega, fun htie hdiff => heven ?_⟩
    have := hne _ hdiff
    omega

/-! ## The patterns next to a hundredth of a number below 2^26 (41_dpt R100) -/

/-- The patterns between which a rational lies: `magBelow`, and the one after it where there is a rest. -/
def MagNeighbour (num den m : Nat) : Prop :=
  m = magBelow num den ∨ (m = magBelow num den + 1 ∧ magRest num den ≠ 0)

theorem magAbove_neighbour (num den : Nat) : MagNeighbour num den (magAbove num den) := by
  unfold magAbove
  split
  · exact .inl rfl
  · next hrest => exact .inr ⟨rfl, hrest⟩

theorem magNearest_neighbour {num den : Nat} (hden : 0 < den) : MagNeighbour num den (magNearest num den) := by
  have := magStep_pos (num := num) hden
  rcases magNearest_cases num den with ⟨hm, -⟩ | ⟨hm, hhalf⟩
  · exact .inl hm
  · exact .inr ⟨hm, by omega⟩

@[simp] theorem magUnits_zero : magUnits 0 = 0 := rfl

/-- The neighbour of zero is zero. -/
theorem MagNeighbour.eq_zero {den m : Nat} (hden : 0 < den) (h : MagNeighbour 0 den m) : m = 0 := by
  obtain ⟨hsum, -⟩ := magBelow_spec 0 den
  rw [Nat.zero_mul, Nat.add_eq_zero_iff, Nat.mul_eq_zero] at hsum
  obtain ⟨hval, hrest⟩ := hsum
  rcases h with rfl | ⟨-, hne⟩
  · exact magUnits_strictMono.injective ((hval.resolve_right hden.ne').trans magUnits_zero.symm)
  · exact absurd hrest hne

/-- 2^26 / 100 is far below the greatest finite magnitude. -/
theorem MagNeighbour.lt {num m : Nat} (h : MagNeighbour num 100 m) (hnum : num ≤ 2 ^ 26) : m < 0x7F800000 := by
  have hval : magUnits (149 * 2 ^ 23 + 2 ^ 23) = 2 ^ 23 * unitsPerOne := magUnits_of_parts (by decide) (.inr le_rfl)
  have hbelow : magBelow num 100 < 149 * 2 ^ 23 + 2 ^ 23 := by
    by_contra hge
    have hle := magUnits_strictMono.monotone (Nat.not_lt.mp hge)
    rw [hval] at hle
    have hmul : 2 ^ 23 * 100 * unitsPerOne ≤ num * unitsPerOne := by
      have := magUnits_magBelow_le num 100
      omega
    have := Nat.le_of_mul_le_mul_right hmul (by decide)
    omega
  rcases h with rfl | ⟨rfl, -⟩ <;> omega

/-- 1 / 100 is far above the least normal magnitude. -/
theorem MagNeighbour.normal {num m : Nat} (h : MagNeighbour num 100 m) (hnum : num ≠ 0) : 2 ^ 23 ≤ m := by
  have hval : magUnits (0 * 2 ^ 23 + 2 ^ 23) = 2 ^ 23 * 2 ^ 0 := magUnits_of_parts (by decide) (.inl rfl)
  rw [Nat.zero_mul, Nat.zero_add, pow_zero, Nat.mul_one] at hval
  have hbelow : 2 ^ 23 ≤ magBelow num 100 := by
    apply le_magBelow (by decide)
    rw [hval]
    calc 2 ^ 23 * 100 ≤ 1 * unitsPerOne := by decide
      _ ≤ num * unitsPerOne := Nat.mul_le_mul_right _ (Nat.one_le_iff_ne_zero.mpr hnum)
  rcases h with rfl | ⟨rfl, -⟩ <;> omega

/-! ## Signed values (30_encoding R86) -/

theorem f32Units_signed {neg : Bool} {mag : Nat} (h : mag < 2 ^ 31) :
    f32Units (signed neg mag) = if neg = true then -(magUnits mag : Int) else magUnits mag := by
  unfold f32Units
  rw [signed_toNat h]
  cases neg with
  | false => simp only [Bool.false_eq_true, false_and, if_false, if_pos h]
  | true =>
    by_cases h0 : mag = 0
    · simp [h0]
    · simp [h0]

/-- Every pattern's value is a magnitude with a sign. -/
theorem f32Units_cases (b : BitVec 32) : ∃ p, f32Units b = magUnits p ∨ f32Units b = -(magUnits p : Int) := by
  unfold f32Units
  split
  · exact ⟨_, .inl rfl⟩
  · exact ⟨_, .inr rfl⟩

theorem signed_toNat_mod {neg : Bool} {mag : Nat} (h : mag < 2 ^ 31) : (signed neg mag).toNat % 2 ^ 31 = mag := by
  rw [signed_toNat h]
  split <;> omega

/-- The rational in units, from its sign and its magnitude. -/
theorem mul_units_eq (q : Int) :
    q * unitsPerOne = if q < 0 then -((q.natAbs * unitsPerOne : Nat) : Int) else (q.natAbs * unitsPerOne : Nat) := by
  push_cast
  split
  · next h => rw [abs_of_neg h, neg_mul, neg_neg]
  · next h => rw [abs_of_nonneg (not_lt.mp h)]

/-! ## The result of R100 -/

/-- |M| is at most 2^11 and E at most 15. -/
theorem dpt9Q_natAbs_le (mode : Dpt9Mantissa) (w : Nat) : (dpt9Q mode w).natAbs ≤ 2 ^ 26 := by
  have hM : (dpt9M mode w).natAbs ≤ 2 ^ 11 := by
    unfold dpt9M
    have := Nat.mod_lt w (y := 2 ^ 11) (by decide)
    cases mode <;> simp only <;> split <;> omega
  have hE : 2 ^ (w / 2 ^ 11 % 16) ≤ 2 ^ 15 := Nat.pow_le_pow_right (by decide) (by omega)
  rw [dpt9Q, Int.natAbs_mul, Int.natAbs_pow]
  exact (Nat.mul_le_mul hM hE).trans (by decide)

/-- The magnitude of the lesser neighbour: the greater one where the rational is negative. -/
def lowerMag (num : Int) (den : Nat) : Nat := if num < 0 then magAbove num.natAbs den else magBelow num.natAbs den

/-- The magnitude of the greater neighbour. -/
def upperMag (num : Int) (den : Nat) : Nat := if num < 0 then magBelow num.natAbs den else magAbove num.natAbs den

theorem lower32_eq_signed (num : Int) (den : Nat) : lower32 num den = signed (decide (num < 0)) (lowerMag num den) := by
  unfold lower32 lowerMag
  split_ifs with h <;> simp only [h, decide_true, decide_false]

theorem upper32_eq_signed (num : Int) (den : Nat) : upper32 num den = signed (decide (num < 0)) (upperMag num den) := by
  unfold upper32 upperMag
  split_ifs with h <;> simp only [h, decide_true, decide_false]

theorem lowerMag_neighbour (num : Int) (den : Nat) : MagNeighbour num.natAbs den (lowerMag num den) :=
  ite_induction (MagNeighbour _ _) (fun _ => magAbove_neighbour _ _) fun _ => .inl rfl

theorem upperMag_neighbour (num : Int) (den : Nat) : MagNeighbour num.natAbs den (upperMag num den) :=
  ite_induction (MagNeighbour _ _) (fun _ => .inl rfl) fun _ => magAbove_neighbour _ _

/-- Whatever the rounding and the draw, the result is a neighbour of |q| with q's sign. -/
theorem dpt9Value_eq_signed (mode : Dpt9Mantissa) (rounding : Dpt9Rounding) (up : Bool) (w : BitVec 16) :
    ∃ m, MagNeighbour (dpt9Q mode w.toNat).natAbs 100 m
      ∧ dpt9Value mode rounding up w = signed (decide (dpt9Q mode w.toNat < 0)) m := by
  cases rounding with
  | exact =>
    rw [dpt9Value_exact, dpt9Numerator_eq_dpt9Q]
    exact ⟨_, magNearest_neighbour (by decide), rfl⟩
  | faithful =>
    rcases dpt9Value_faithful mode up w with h | h <;> rw [h, dpt9Numerator_eq_dpt9Q]
    · exact ⟨_, lowerMag_neighbour _ _, lower32_eq_signed _ _⟩
    · exact ⟨_, upperMag_neighbour _ _, upper32_eq_signed _ _⟩

/-- The value of a neighbour of |q| with q's sign. -/
theorem f32Units_of_neighbour {q : Int} {m : Nat} (hm : MagNeighbour q.natAbs 100 m) (hq : q.natAbs ≤ 2 ^ 26) :
    f32Units (signed (decide (q < 0)) m) = if q < 0 then -(magUnits m : Int) else magUnits m := by
  have := hm.lt hq
  rw [f32Units_signed (by omega), if_congr decide_eq_true_iff rfl rfl]

/-- Every result is a finite pattern. -/
theorem dpt9Value_finite (mode : Dpt9Mantissa) (rounding : Dpt9Rounding) (up : Bool) (w : BitVec 16) :
    f32Finite (dpt9Value mode rounding up w) := by
  obtain ⟨m, hm, h⟩ := dpt9Value_eq_signed mode rounding up w
  have hlt := hm.lt (dpt9Q_natAbs_le mode w.toNat)
  rwa [f32Finite, h, signed_toNat_mod (by omega)]

/-- Settles O36: a neighbour of |q| is zero for q = 0, and else lies between the least normal and the greatest finite
magnitude. -/
theorem float16IsNormalOrPlusZero : Obligations.Float16IsNormalOrPlusZero := by
  unfold Obligations.Float16IsNormalOrPlusZero
  intro mode rounding up w
  obtain ⟨m, hm, h⟩ := dpt9Value_eq_signed mode rounding up w
  have hlt := hm.lt (dpt9Q_natAbs_le mode w.toNat)
  simp only [h, signed_toNat_mod (show m < 2 ^ 31 by omega)]
  by_cases hq : (dpt9Q mode w.toNat).natAbs = 0
  · rw [hq] at hm
    rw [hm.eq_zero (by decide)]
    exact .inl (by cases decide (dpt9Q mode w.toNat < 0) <;> rfl)
  · exact .inr ⟨hm.normal hq, hlt⟩

/-- Settles O34: `magNearest_nearest` for a value of q's sign; a value of the other sign lies beyond zero. -/
theorem float16ExactIsNearestTiesToEven : Obligations.Float16ExactIsNearestTiesToEven := by
  unfold Obligations.Float16ExactIsNearestTiesToEven
  intro mode up w b' _
  refine ⟨dpt9Value_finite mode .exact up w, ?_⟩
  have hq := dpt9Q_natAbs_le mode w.toNat
  rw [dpt9Value_exact, dpt9Numerator_eq_dpt9Q, rne32, mul_units_eq]
  generalize dpt9Q mode w.toNat = q at hq ⊢
  have hm : MagNeighbour q.natAbs 100 (magNearest q.natAbs 100) := magNearest_neighbour (by decide)
  have hlt := hm.lt hq
  have hmod := signed_toNat_mod (neg := decide (q < 0)) (mag := magNearest q.natAbs 100) (by omega)
  rw [f32Units_of_neighbour hm hq]
  obtain ⟨p, hb'⟩ := f32Units_cases b'
  obtain ⟨hp, htie⟩ := magNearest_nearest (num := q.natAbs) (den := 100) (by decide) p
  obtain ⟨hzero, -⟩ := magNearest_nearest (num := q.natAbs) (den := 100) (by decide) 0
  simp only [magDist, magUnits_zero] at hp htie hzero
  split_ifs <;> omega

/-- Settles O35: no magnitude lies between `magBelow`, the rational and `magAbove`; a value of the sign other than q's lies
beyond zero. -/
theorem float16FaithfulIsANeighbour : Obligations.Float16FaithfulIsANeighbour := by
  unfold Obligations.Float16FaithfulIsANeighbour
  intro mode w
  refine ⟨dpt9Value_finite mode .faithful false w, dpt9Value_finite mode .faithful true w, ?_⟩
  have hq := dpt9Q_natAbs_le mode w.toNat
  simp only [dpt9Value, Bool.false_eq_true, if_false, if_true, dpt9Numerator_eq_dpt9Q, mul_units_eq, lower32_eq_signed,
    upper32_eq_signed, f32Units_of_neighbour (lowerMag_neighbour _ _) hq, f32Units_of_neighbour (upperMag_neighbour _ _) hq]
  generalize dpt9Q mode w.toNat = q
  unfold lowerMag upperMag
  have hbelow := magUnits_magBelow_le q.natAbs 100
  have habove := le_magUnits_magAbove (num := q.natAbs) (den := 100) (by decide)
  refine ⟨by split_ifs <;> omega, by split_ifs <;> omega, fun b' _ => ?_⟩
  obtain ⟨p, hb'⟩ := f32Units_cases b'
  have hmax := magUnits_le_magBelow (num := q.natAbs) (den := 100) (p := p) (by decide)
  have hmin := magUnits_magAbove_le (num := q.natAbs) (den := 100) (p := p) (by decide)
  split_ifs <;> omega

/-- Settles O37: by evaluation. -/
theorem float16WorkedValues : Obligations.Float16WorkedValues := by
  unfold Obligations.Float16WorkedValues
  decide

end Sys2Proof.Machine
end

section
/-! PROOFS. The statements about every DECODE: when it accepts, what a delivered datagram had, at which byte it faults, and
the state after reset. -/

namespace Sys2Proof.Machine

/-! ## Acceptance (42_decode R118, R120) -/

/-- Settles O43: `firstFailure` is `none` exactly under R118's condition, and DECODE ends as it says. -/
theorem acceptanceDoesNotDependOnTheOrder : Obligations.AcceptanceDoesNotDependOnTheOrder := by
  unfold Obligations.AcceptanceDoesNotDependOnTheOrder
  intro s hw
  rw [← firstFailure_eq_none_iff]
  cases hf : s.firstFailure with
  | none =>
    have hnext := exec_decode_of_passed hw hf
    exact ⟨⟨fun _ => rfl, fun _ => ⟨_, hnext, rfl⟩⟩, ⟨nofun, fun h => absurd rfl h⟩⟩
  | some r =>
    have hnext := exec_decode_of_firstFailure hw hf
    refine ⟨⟨fun ⟨t, ht, hdel⟩ => ?_, nofun⟩, ⟨fun _ => nofun, fun _ => ⟨r, hnext, rfl⟩⟩⟩
    obtain rfl := Host.Outcome.next.inj (hnext.symm.trans ht)
    exact absurd hdel (ne_delivered_of_isDiscard (firstFailure_isDiscard hf))

/-- Settles O44: what is delivered met R118's condition, which under ANY holds all of these. -/
theorem deliveredDatagramsPassedEveryCheck : Obligations.DeliveredDatagramsPassedEveryCheck := by
  unfold Obligations.DeliveredDatagramsPassedEveryCheck
  intro s t hany ht hdel
  obtain ⟨-, accepted, -⟩ := decodeDeliversAnAcceptedDatagram
  obtain ⟨-, hheader, -, -, hcode, -, hdat, hL, hmax, hend⟩ := accepted s t ht hdel
  obtain ⟨hlen, hver, hsvc⟩ := hheader hany
  exact ⟨BitVec.eq_of_toNat_eq hlen, BitVec.eq_of_toNat_eq hver, hsvc, BitVec.eq_of_toNat_eq hcode, hdat, hL, hmax, hend⟩

/-! ## Faults (60_exceptions R140, 42_decode R106) -/

/-- DECODE faults exactly at the first unwritten byte it reads. -/
theorem exec_decode_eq_fault_iff {s : State} {f : Fault} :
    exec .decode s = .fault f ↔ ∃ k, s.firstUnwrittenRead = some k ∧ f = .uninit .rx k := by
  rw [exec, execDecode_eq]
  cases s.firstUnwrittenRead with
  | some k => simp [commandOutcome, eq_comm]
  | none => cases s.firstFailure <;> simp [commandOutcome]

/-- Every byte DECODE reads lies within the bytes received, and below 16 + 255 + 255. -/
theorem lt_of_mem_decodeReads {s : State} {k : Nat} (h : k ∈ s.decodeReads) : k < s.rxlen.toNat ∧ k < 526 := by
  have hN : s.rxN < 2 ^ 8 := (s.rxAt 7).isLt
  have hL : s.rxL < 2 ^ 8 := (s.rxAt (14 + s.rxN)).isLt
  simp only [State.decodeReads, ← List.range'_eq_map_range] at h
  split_ifs at h <;>
    simp only [List.mem_append, List.mem_cons, List.not_mem_nil, or_false, List.mem_range'_1] at h <;> omega

/-- An unwritten byte has no value, and claims read it as 0. -/
theorem rxAt_of_unwritten {s : State} {k : Nat} (h : memGet s.rx k = none) : s.rxAt k = 0 := by
  simp [State.rxAt, State.byteAt, h]

/-- With the checks up to DAT passed and data_len unwritten, DECODE reads up to data_len. -/
theorem decodeReads_of_data_len_unwritten {s : State} (hh : ¬ s.headerFails) (hcode : s.rxAt 6 = 0x29)
    (hn : 16 + s.rxN ≤ s.rxlen.toNat) (hdat : dat s.params.ctrlLayout (s.rxAt (9 + s.rxN)) = true)
    (hnone : memGet s.rx (14 + s.rxN) = none) :
    s.decodeReads = [0, 1, 2, 3, 6, 7, 9 + s.rxN] ++ [14 + s.rxN] := by
  have hL : s.rxL = 0 := by rw [State.rxL, rxAt_of_unwritten hnone]; rfl
  have h6 : ¬ s.rxlen.toNat < 6 := by omega
  have h8 : ¬ s.rxlen.toNat < 8 := by omega
  simp only [State.decodeReads, if_neg h6, if_neg (not_or.mpr ⟨hh, h8⟩), hcode, if_neg (Nat.not_lt.mpr hn), hdat, hL]
  rfl

/-- Settles O47: `execDecode_eq` for the fault, the bounds of each branch of `decodeReads`, and data_len after six written
bytes. -/
theorem decodeFaultsOnlyOnUnwrittenBytes : Obligations.DecodeFaultsOnlyOnUnwrittenBytes := by
  unfold Obligations.DecodeFaultsOnlyOnUnwrittenBytes
  refine ⟨fun s f => exec_decode_eq_fault_iff, fun s k => lt_of_mem_decodeReads, ?_⟩
  intro s hany hn hw h0 h1 hsvc hcode hc2 hdat hnone
  refine exec_decode_eq_fault_iff.mpr ⟨_, ?_, rfl⟩
  have hh : ¬ s.headerFails := not_headerFails (fun _ => ⟨h0, h1, hsvc⟩) fun _ => .inl h0
  have hsome (k : Nat) (hk : k < 8) : (memGet s.rx k).isNone = false := by
    simpa [Option.isNone_eq_false_iff] using hw k hk
  rw [State.firstUnwrittenRead, decodeReads_of_data_len_unwritten hh hcode hn hdat hnone]
  simp [hsome, hc2, hnone]

/-! ## The state after reset (10_state R15, 95_test_vectors V-RST) -/

/-- Settles O13: the registers by evaluation, and each first command by its length check. -/
theorem resetStateIsIdle : Obligations.ResetStateIsIdle := by
  unfold Obligations.ResetStateIsIdle
  obtain ⟨hshort, -⟩ := decodeDiscardsShortDatagrams State.reset
  obtain ⟨-, dptBool⟩ := dptBoolReadsBitZeroOfByteOne
  obtain ⟨hlen, -⟩ := dptBool State.reset
  exact ⟨rfl, ⟨rfl, rfl, nofun⟩, .inl rfl, ⟨rfl, rfl⟩, hshort (by decide),
    encodeRejectsBadLength State.reset (.inl rfl), hlen (by decide)⟩

end Sys2Proof.Machine
end
